-- ==== Sys2Proof/Word.lean ====
section
/-! DEFINITION. The word types of the machine: 00_scope.md rules R4 (`XLEN` = 32, `ALEN` = 32), R5 and R12. -/

namespace Sys2Proof

/-- A 32-bit value: a register, an address or an instruction word (R4). -/
abbrev Word := BitVec 32

/-- A halfword, 16 bits (00_scope.md glossary). -/
abbrev Half := BitVec 16

/-- A byte, the unit of addressing (20_memory.md R29). -/
abbrev Byte := BitVec 8

end Sys2Proof
end

