-- ==== Sys2Proof/Syntax.lean ====
section
/-! DEFINITION. The instructions, one constructor per row of spec/opcode_table.json (30_encoding.md R38, R44, R40, R46, R47). -/

namespace Sys2Proof

/-- The instruction-set state and the tag of every encoding (10_state.md R23). -/
inductive ISet where
  | a32
  | t32
deriving DecidableEq, Repr

/-- A 4-bit register field `Rd`, `Rn` or `Rm`: it can name 0 to 15 (10_state.md R13). -/
abbrev RegField := BitVec 4

/-- A register number an instruction may use, 0 to 14; there is no accessor for register 15 (00_scope.md R12, 10_state.md R14). -/
abbrev Reg := Fin 15

/-- One constructor per row of the opcode table.
The first four are the instructions of the spec; a shift field is the 5-bit `imm5`, which in T1 is `imm3:imm2` (30_encoding.md R49).
The last four are the neighbouring words the table lists under `UNDEFINED` and `RESERVED`; they carry every bit of their row that is not fixed. -/
inductive Instr where
  /-- `PKHBT_A1` (40_pack_halfword.md R66). -/
  | pkhbtA1 (cond : BitVec 4) (rn rd : RegField) (imm5 : BitVec 5) (rm : RegField)
  /-- `PKHTB_A1` (R67). -/
  | pkhtbA1 (cond : BitVec 4) (rn rd : RegField) (imm5 : BitVec 5) (rm : RegField)
  /-- `PKHBT_T1` (R68). -/
  | pkhbtT1 (rn rd : RegField) (imm5 : BitVec 5) (rm : RegField)
  /-- `PKHTB_T1` (R69). -/
  | pkhtbT1 (rn rd : RegField) (imm5 : BitVec 5) (rm : RegField)
  /-- `UNDEFINED_T1_S`: bit 20 set, bit 15 clear (30_encoding.md R46); `lo15` is bits 14:0. -/
  | undefinedT1S (rn : RegField) (lo15 : BitVec 15)
  /-- `UNDEFINED_T1_T`: bit 4 set, bits 20 and 15 clear (R46); `mid10` is bits 14:5. -/
  | undefinedT1T (rn : RegField) (mid10 : BitVec 10) (rm : RegField)
  /-- `RESERVED_T1_SBZ15`: bit 15 set (R47); `s` is bit 20, `lo15` is bits 14:0. -/
  | reservedT1Sbz15 (s : BitVec 1) (rn : RegField) (lo15 : BitVec 15)
  /-- `RESERVED_A1_COND1111`: the A1 fixed bits with `cond = 1111` (R40); `mid14` is bits 19:6. -/
  | reservedA1Cond1111 (mid14 : BitVec 14) (rm : RegField)
deriving DecidableEq, Repr

/-- The instruction set an encoding belongs to (00_scope.md R1). -/
def Instr.iset : Instr → ISet
  | .pkhbtA1 .. => .a32
  | .pkhtbA1 .. => .a32
  | .pkhbtT1 .. => .t32
  | .pkhtbT1 .. => .t32
  | .undefinedT1S .. => .t32
  | .undefinedT1T .. => .t32
  | .reservedT1Sbz15 .. => .t32
  | .reservedA1Cond1111 .. => .a32

end Sys2Proof
end

