-- ==== Sys2Proof/WellFormed.lean ====
section
/-! DEFINITION. Which terms of `Instr` are encodings, and which of those are defined instructions (30_encoding.md R39, R43, R50). -/

namespace Sys2Proof

/-- The register fields hold no 15: otherwise the word is UNPREDICTABLE (R43, R50). -/
abbrev RegsDefined (rd rn rm : RegField) : Prop := rd ≠ 15#4 ∧ rn ≠ 15#4 ∧ rm ≠ 15#4

/-- `i` has an encoding.
The one constraint a row puts on a field that its constructor carries is A1's `cond != 1111` (R39, R40). -/
def Instr.wellFormed : Instr → Bool
  | .pkhbtA1 cond .. => cond != 15#4
  | .pkhtbA1 cond .. => cond != 15#4
  | .pkhbtT1 .. => true
  | .pkhtbT1 .. => true
  | .undefinedT1S .. => true
  | .undefinedT1T .. => true
  | .reservedT1Sbz15 .. => true
  | .reservedA1Cond1111 .. => true

/-- `i` is one of the defined instructions: PKHBT or PKHTB, encodable, with every register field in 0..14 (R43, R50).
What is encodable and not defined is UNPREDICTABLE, UNDEFINED or reserved. -/
def Instr.defined : Instr → Bool
  | .pkhbtA1 cond rn rd _ rm => cond != 15#4 && decide (RegsDefined rd rn rm)
  | .pkhtbA1 cond rn rd _ rm => cond != 15#4 && decide (RegsDefined rd rn rm)
  | .pkhbtT1 rn rd _ rm => decide (RegsDefined rd rn rm)
  | .pkhtbT1 rn rd _ rm => decide (RegsDefined rd rn rm)
  | .undefinedT1S .. => false
  | .undefinedT1T .. => false
  | .reservedT1Sbz15 .. => false
  | .reservedA1Cond1111 .. => false

end Sys2Proof
end

