-- ==== Sys2Proof/Decode.lean ====
section
/-! DEFINITION. From bytes to instructions and back: 20_memory.md R30, R31; 30_encoding.md R37 to R50, R52, R53. -/

namespace Sys2Proof

/-! ### Byte order (20_memory.md R31) -/

/-- `Fetch16`: the byte at the lower address is the low one (R31). -/
def half (b0 b1 : Byte) : Half := b1 ++ b0

/-- `Fetch32`: little-endian (R31). -/
def word32 (b0 b1 b2 b3 : Byte) : Word := b3 ++ b2 ++ b1 ++ b0

/-- The T32 value the T1 rules match against: `hw1 : hw2` (20_memory.md R30). -/
def wordT32 (hw1 hw2 : Half) : Word := hw1 ++ hw2

/-- The two bytes of a halfword at increasing addresses (R31). -/
def halfBytes (h : Half) : List Byte := [h.extractLsb' 0 8, h.extractLsb' 8 8]

/-- The bytes of a 32-bit instruction at increasing addresses: a little-endian word in A32; in T32 the first halfword and then the second (R31). -/
def wordBytes : ISet → Word → List Byte
  | .a32, w => halfBytes (w.extractLsb' 0 16) ++ halfBytes (w.extractLsb' 16 16)
  | .t32, w => halfBytes (w.extractLsb' 16 16) ++ halfBytes (w.extractLsb' 0 16)

/-- `hw1[15:11]` is `11101`, `11110` or `11111`: the T32 instruction has a second halfword (R30). -/
def isWide (hw1 : Half) : Bool :=
  let top := hw1.extractLsb' 11 5
  top == 0b11101#5 || top == 0b11110#5 || top == 0b11111#5

/-! ### Decoding one word -/

/-- An A32 word (R39, R40, R41, R52, R53): `none` is a word the source does not describe.
The register-15 check of R43 stands in the instructions' meanings, where R66 and R67 put it. -/
def decodeA32Word (w : Word) : Option Instr :=
  if w &&& 0x0FF00030#32 = 0x06800010#32 then
    let cond := w.extractLsb' 28 4
    let rn := w.extractLsb' 16 4
    let rd := w.extractLsb' 12 4
    let imm5 := w.extractLsb' 7 5
    let rm := w.extractLsb' 0 4
    if cond = 15#4 then some (.reservedA1Cond1111 (w.extractLsb' 6 14) rm)
    else if w.getLsbD 6 then some (.pkhtbA1 cond rn rd imm5 rm)
    else some (.pkhbtA1 cond rn rd imm5 rm)
  else none

/-- A T32 value `hw1:hw2` (R45 to R49, in the order of R52: the match, bit 15, `S`, `T`): `none` is a word the source does not describe.
A word with `S = T = 1` matches both UNDEFINED rows, with one outcome; it is given to the `S` row (log entry 29). -/
def decodeT32Word (w : Word) : Option Instr :=
  if w &&& 0xFFE00000#32 = 0xEAC00000#32 then
    let rn := w.extractLsb' 16 4
    let imm5 := w.extractLsb' 12 3 ++ w.extractLsb' 6 2
    let rd := w.extractLsb' 8 4
    let rm := w.extractLsb' 0 4
    if w.getLsbD 15 then some (.reservedT1Sbz15 (w.extractLsb' 20 1) rn (w.extractLsb' 0 15))
    else if w.getLsbD 20 then some (.undefinedT1S rn (w.extractLsb' 0 15))
    else if w.getLsbD 4 then some (.undefinedT1T rn (w.extractLsb' 5 10) rm)
    else if w.getLsbD 5 then some (.pkhtbT1 rn rd imm5 rm)
    else some (.pkhbtT1 rn rd imm5 rm)
  else none

/-- The decoder that the instruction-set state selects (R37). -/
def decodeWord : ISet → Word → Option Instr
  | .a32, w => decodeA32Word w
  | .t32, w => decodeT32Word w

/-! ### Decoding bytes -/

/-- What a list of bytes decodes to. -/
inductive Decoded where
  /-- An instruction of the table, and the bytes after it. -/
  | instr (i : Instr) (rest : List Byte)
  /-- A word the source does not describe (R53); a 16-bit T32 instruction is given zero-extended (log entry 27). -/
  | notInSource (w : Word)
  /-- Fewer bytes than the instruction has: `got` of them. -/
  | truncated (got : Nat)
deriving DecidableEq, Repr

/-- A whole 32-bit word `w` of instruction set `set`, with the bytes after it. -/
def decodedOf (set : ISet) (w : Word) (rest : List Byte) : Decoded :=
  match decodeWord set w with
  | some i => .instr i rest
  | none => .notInSource w

/-- The second halfword of a T32 instruction whose first is `hw1` (20_memory.md R30). -/
def decodeSecondHalf (hw1 : Half) : List Byte → Decoded
  | b2 :: b3 :: rest => decodedOf .t32 (wordT32 hw1 (half b2 b3)) rest
  | bs => .truncated (2 + bs.length)

/-- Decoding, total on any bytes (20_memory.md R30, 30_encoding.md R37, R53). -/
def decode : ISet → List Byte → Decoded
  | .a32, b0 :: b1 :: b2 :: b3 :: rest => decodedOf .a32 (word32 b0 b1 b2 b3) rest
  | .a32, bs => .truncated bs.length
  | .t32, b0 :: b1 :: rest =>
    if isWide (half b0 b1) then decodeSecondHalf (half b0 b1) rest
    else .notInSource ((half b0 b1).zeroExtend 32)
  | .t32, bs => .truncated bs.length

/-! ### Encoding, from the same tables (30_encoding.md R38, R44) -/

/-- The A1 format, bit 31 first (R38). -/
def encodeA1 (cond : BitVec 4) (rn rd : RegField) (imm5 : BitVec 5) (tb : BitVec 1) (rm : RegField) : Word :=
  cond ++ 0b01101000#8 ++ rn ++ rd ++ imm5 ++ tb ++ 0b01#2 ++ rm

/-- The T1 format with `S = 0`, bit 15 = 0 and `T = 0`, bit 31 first (R44). -/
def encodeT1 (rn rd : RegField) (imm5 : BitVec 5) (tb : BitVec 1) (rm : RegField) : Word :=
  0b111010101100#12 ++ rn ++ 0b0#1 ++ imm5.extractLsb' 2 3 ++ rd ++ imm5.extractLsb' 0 2 ++ tb ++ 0b0#1 ++ rm

/-- The 32-bit value of an instruction, as the table numbers its bits (`hw1:hw2` in T32). -/
def encodeWord : Instr → Word
  | .pkhbtA1 cond rn rd imm5 rm => encodeA1 cond rn rd imm5 0#1 rm
  | .pkhtbA1 cond rn rd imm5 rm => encodeA1 cond rn rd imm5 1#1 rm
  | .pkhbtT1 rn rd imm5 rm => encodeT1 rn rd imm5 0#1 rm
  | .pkhtbT1 rn rd imm5 rm => encodeT1 rn rd imm5 1#1 rm
  | .undefinedT1S rn lo15 => 0b111010101101#12 ++ rn ++ 0b0#1 ++ lo15
  | .undefinedT1T rn mid10 rm => 0b111010101100#12 ++ rn ++ 0b0#1 ++ mid10 ++ 0b1#1 ++ rm
  | .reservedT1Sbz15 s rn lo15 => 0b11101010110#11 ++ s ++ rn ++ 0b1#1 ++ lo15
  | .reservedA1Cond1111 mid14 rm => 0b111101101000#12 ++ mid14 ++ 0b01#2 ++ rm

/-- The bytes of an instruction in memory order (20_memory.md R31). -/
def encode (i : Instr) : List Byte := wordBytes i.iset (encodeWord i)

/-! ### The opcode table (spec/opcode_table.json) -/

/-- A row: the bits `mask` selects are those of `pattern`. -/
structure Row where
  isa : ISet
  mask : Word
  pattern : Word
  priority : Nat
deriving DecidableEq, Repr

/-- The row of the table an instruction belongs to. -/
def Instr.row : Instr → Row
  | .pkhbtA1 .. => ⟨.a32, 0x0FF00070#32, 0x06800010#32, 3⟩
  | .pkhtbA1 .. => ⟨.a32, 0x0FF00070#32, 0x06800050#32, 3⟩
  | .pkhbtT1 .. => ⟨.t32, 0xFFF08030#32, 0xEAC00000#32, 3⟩
  | .pkhtbT1 .. => ⟨.t32, 0xFFF08030#32, 0xEAC00020#32, 3⟩
  | .undefinedT1S .. => ⟨.t32, 0xFFF08000#32, 0xEAD00000#32, 2⟩
  | .undefinedT1T .. => ⟨.t32, 0xFFE08010#32, 0xEAC00010#32, 2⟩
  | .reservedT1Sbz15 .. => ⟨.t32, 0xFFE08000#32, 0xEAC08000#32, 1⟩
  | .reservedA1Cond1111 .. => ⟨.a32, 0xFFF00030#32, 0xF6800010#32, 1⟩

/-- The word `w` is of row `r`. -/
def Row.holds (r : Row) (w : Word) : Bool := w &&& r.mask == r.pattern

/-! ### The host's table words -/

/-- The 32-bit value the table's numbering gives `w`: the bits above `nbits` are 0. -/
def tableValue (nbits w : Nat) : Word := BitVec.ofNat 32 (w % 2 ^ nbits)

/-- The instruction set of a table word: bits 31:21 of every T32 row are `11101010110`, and no A32 row has them (log entry 8). -/
def tableISet (w : Word) : ISet := if w.extractLsb' 21 11 = 0b11101010110#11 then .t32 else .a32

/-- The instruction the decoder reads from a word numbered as spec/opcode_table.json numbers it, laid out in memory order (R31). -/
def decodeTableWord (nbits w : Nat) : Option Instr :=
  let v := tableValue nbits w
  match decode (tableISet v) (wordBytes (tableISet v) v) with
  | .instr i _ => some i
  | .notInSource _ => none
  | .truncated _ => none

end Sys2Proof
end

