-- ==== Sys2Proof/Config.lean ====
section
/-! DEFINITION. The implementation parameters of 00_scope.md R4. -/

namespace Sys2Proof

/-- The OPEN parameter `P_IT` (00_scope.md R4, 92_eei_decisions.md D9): whether a T32 instruction may run with `ITSTATE` not zero. -/
inductive ItSupport where
  /-- A T32 step with `ITSTATE != 0` is refused. -/
  | outsideOnly
  /-- 10_state.md R24 is implemented. -/
  | full
deriving DecidableEq, Repr

/-- The setting `step` uses.
DESIGN CHOICE (log entry 10; unsafe inside an IT block, entry 24): R24 whole; `stepWith` takes either setting as an argument. -/
def Config.pIT : ItSupport := .full

/-- The OPEN parameter `P_DIT` (00_scope.md R4, 10_state.md R22): whether `CPSR.DIT` exists. -/
inductive DitSupport where
  /-- The data-independent-timing feature is not implemented: there is no bit. -/
  | absent
  /-- `CPSR.DIT` is one bit of state. -/
  | present
deriving DecidableEq, Repr

/-- The setting of the reset state that the host interface takes.
DESIGN CHOICE (log entry 11, safe): the bit is there; `State.resetOf` and `Launch.ok` take either setting as an argument. -/
def Config.pDIT : DitSupport := .present

/-- `CPSR.DIT` under a setting of `P_DIT`: the value `b`, or no bit at all. -/
def DitSupport.bit (d : DitSupport) (b : Bool) : Option Bool :=
  match d with
  | .absent => none
  | .present => some b

/-- The length in bytes of each of the four encodings (`ILEN_A1` = `ILEN_T1` = 32 bits, R4). -/
def Config.ilenBytes : Nat := 4

/-- One past the last address of the address space (`ALEN` = 32, R4). -/
def Config.addrLimit : Nat := 2 ^ 32

/-- What a byte address that the program text does not list reads as: no value, so that fetching it is stuck (20_memory.md R34; log entry 7, safe). -/
def Config.unlisted : Option Byte := none

end Sys2Proof
end

