-- ==== Sys2Proof/Machine/State.lean ====
section
/-! DEFINITION. The state of the machine (10_state.md), the reasons it stops (60_exceptions.md), and the state after reset. -/

namespace Sys2Proof.Machine

open Sys2Proof

/-- Why the machine stops with a fault. -/
inductive Fault where
  /-- Raised by `raiseUndefined`, for a T32 word with `S = 1` or `T = 1` (60_exceptions.md R74); records the pc and the word (R76's table).
  Safe: the processor would enter a handler the spec does not describe (log entry 12). -/
  | undefinedInstruction (pc w : Word)
  /-- Raised by `fetch` when the byte at `addr` is not in the program text: the step does not exist, the machine is stuck (20_memory.md R34).
  Safe: the model stops where a processor would fetch whatever lies there (log entry 7). -/
  | fetchOutsideText (addr : Word)
deriving DecidableEq, Repr

/-- Why the machine gives an instruction no meaning (60_exceptions.md R75 and the table under R76).
Each of the spec's refusals is safe: no claim about a run that meets one can be proved. -/
inductive Refusal where
  /-- Raised by `exec` for an instruction without a meaning yet; no arm raises it. Safe. -/
  | notModelled (mnemonic : String)
  /-- Raised by `fetch` for a word outside the source (30_encoding.md R53) and by the meaning of `RESERVED_A1_COND1111` (R40). Safe (log entry 15). -/
  | wordNotInSource (pc w : Word)
  /-- Raised by PKHBT and PKHTB when a register field is 15 (R43, R50). Safe (log entry 13). -/
  | unpredictableR15 (pc w : Word)
  /-- Raised by the meaning of `RESERVED_T1_SBZ15` (R47). Safe (log entry 14). -/
  | sbz15 (pc w : Word)
  /-- Raised by `stepCheck` (20_memory.md R32). Safe (log entry 19). -/
  | pcMisaligned (pc : Word)
  /-- Raised by `stepCheck` (10_state.md R18). Safe (log entry 17). -/
  | pcWrap (pc : Word)
  /-- Raised by `stepCheck` (10_state.md R24). Safe (log entry 10). -/
  | itBlock (pc : Word)
deriving DecidableEq, Repr

/-- What the fault and refused marks record (10_state.md, summary table; 60_exceptions.md R75, R79, R80). -/
inductive Mark where
  | faulted (f : Fault)
  | refused (r : Refusal)
deriving DecidableEq, Repr

/-- The program text: the bytes it holds, by address, in canonical form (`Memory.wf`).
An address that is not listed reads as `Config.unlisted`. -/
abbrev Memory := List Host.Cell

/-- The canonical form: addresses strictly rising, and all of them in the address space (20_memory.md R29). -/
abbrev Memory.wf (m : Memory) : Prop :=
  m.Pairwise (fun a b => a.1 < b.1) ∧ ∀ c ∈ m, c.1 < Config.addrLimit

/-- Everything the spec gives the machine (10_state.md, summary table). -/
structure State where
  /-- `x[0]` to `x[14]` (R13, R17). -/
  regs : Vector Word 15
  /-- The address of the current instruction (R18). -/
  pc : Word
  /-- The flag `N` (R19). -/
  n : Bool
  /-- The flag `Z` (R19). -/
  z : Bool
  /-- The flag `C` (R19, R20). -/
  c : Bool
  /-- The flag `V` (R19). -/
  v : Bool
  /-- `CPSR.DIT` (R22): `none` where the bit does not exist (`P_DIT`, 00_scope.md R4; R27's table: "`LAUNCH` parameter or absent"). -/
  dit : Option Bool
  /-- The instruction-set state (R23). -/
  iset : ISet
  /-- The If-Then state (R24). -/
  itstate : BitVec 8
  /-- The program text (20_memory.md R29, R34, R36). -/
  mem : Memory
  /-- The fault and refused marks: clear is `none` (R27; 60_exceptions.md R75, R80). -/
  mark : Option Mark
deriving DecidableEq, Repr

/-- The state after reset under either setting of `P_DIT` (10_state.md R27, 70_reset_and_hazards.md R83).
The spec gives `ITSTATE` zero and the marks clear; DESIGN CHOICE (unsafe, log entries 1 to 4): registers, flags and pc zero, `iset` A32; PRESUMED (unsafe, log entry 5): `DIT` zero where it exists; no program text is loaded (log entry 8). -/
def State.resetOf (d : DitSupport) : State where
  regs := Vector.replicate 15 0#32
  pc := 0#32
  n := false
  z := false
  c := false
  v := false
  dit := d.bit false
  iset := .a32
  itstate := 0#8
  mem := []
  mark := none

/-- The state after reset with the model's setting of `P_DIT`. -/
def State.reset : State := State.resetOf Config.pDIT

end Sys2Proof.Machine
end

