-- ==== Sys2Proof/Machine/Ops.lean ====
section
/-! DEFINITION. The named operations over registers, program counter and program text, and the machine's one trap. -/

namespace Sys2Proof.Machine

open Sys2Proof

/-! ### General-purpose registers (00_scope.md R12) -/

/-- `x[r]`. -/
def State.reg (s : State) (r : Reg) : Word := s.regs[r]

/-- `x[r] <- w`. -/
def State.setReg (s : State) (r : Reg) (w : Word) : State := { s with regs := s.regs.set r w }

/-! ### `CPSR.DIT` (10_state.md R22) -/

/-- The setting of `P_DIT` that a state is of (00_scope.md R4): whether it has the bit. -/
def State.ditSupport (s : State) : DitSupport :=
  match s.dit with
  | none => .absent
  | some _ => .present

/-! ### Program counter (10_state.md R18) -/

/-- `pc <- target`. -/
def State.setPc (s : State) (target : Word) : State := { s with pc := target }

/-- `pc <- pc + 4` (R18, R72). -/
def State.advancePc (s : State) : State := s.setPc (s.pc + BitVec.ofNat 32 Config.ilenBytes)

/-- The alignment of the pc: `pc[1:0] = 00` in A32 state, `pc[0] = 0` in T32 state (20_memory.md R32). -/
def pcAligned : ISet → Word → Bool
  | .a32, pc => pc.extractLsb' 0 2 == 0#2
  | .t32, pc => pc.extractLsb' 0 1 == 0#1

/-- `pc + 4 > 2^32 - 1`, on unbounded integers (R18). -/
def pcWraps (pc : Word) : Bool := decide (pc.toNat + Config.ilenBytes > Config.addrLimit - 1)

/-! ### Program text (20_memory.md R29 to R36) -/

/-- The byte at an address. -/
def Memory.read : Memory → Nat → Option Byte
  | [], _ => Config.unlisted
  | cell :: rest, a => if cell.1 = a then some cell.2 else Memory.read rest a

/-- The text with one byte placed, in canonical form; used to load a program and by no instruction (R36). -/
def Memory.write : Memory → Nat → Byte → Memory
  | [], a, b => [(a, b)]
  | cell :: rest, a, b =>
    if a < cell.1 then (a, b) :: cell :: rest
    else if a = cell.1 then (a, b) :: rest
    else cell :: Memory.write rest a b

/-- The text with the bytes `bs` placed from address `a` up. -/
def Memory.load (m : Memory) (a : Nat) : List Byte → Memory
  | [] => m
  | b :: bs => (Memory.write m a b).load (a + 1) bs

/-- The bytes of the text from address `a` up: at most `n` of them, and none from the first address outside the text on. -/
def Memory.fetchBytes (m : Memory) (a : Nat) : Nat → List Byte
  | 0 => []
  | n + 1 =>
    match m.read a with
    | some b => b :: m.fetchBytes (a + 1) n
    | none => []

/-! ### Taking an exception (60_exceptions.md R74, R79) -/

/-- `raise UndefinedInstruction(w)`, the machine's only trap: terminal, recording the pc and the word, saving nothing, changing no state and entering no handler (R74, R79, D4).
There is no return from it (R80). -/
def raiseUndefined (w : Word) (s : State) : Host.Outcome State Fault Refusal :=
  .fault (.undefinedInstruction s.pc w)

end Sys2Proof.Machine
end

