-- ==== Sys2Proof/Machine/Neighbours.lean ====
section
/-! DEFINITION. The neighbouring words of the opcode table: UNDEFINED (30_encoding.md R46) and RESERVED (R40, R47). -/

namespace Sys2Proof.Machine

open Sys2Proof

/-- `UNDEFINED_T1_S` (R46, 60_exceptions.md R74). -/
def execUndefinedT1S (rn : RegField) (lo15 : BitVec 15) (s : State) : Host.Outcome State Fault Refusal :=
  raiseUndefined (encodeWord (.undefinedT1S rn lo15)) s

/-- `UNDEFINED_T1_T` (R46, R74). -/
def execUndefinedT1T (rn : RegField) (mid10 : BitVec 10) (rm : RegField) (s : State) : Host.Outcome State Fault Refusal :=
  raiseUndefined (encodeWord (.undefinedT1T rn mid10 rm)) s

/-- `RESERVED_T1_SBZ15`: `refuse(sbz15)` (R47, 60_exceptions.md R75). -/
def execReservedT1Sbz15 (sbit : BitVec 1) (rn : RegField) (lo15 : BitVec 15) (s : State) : Host.Outcome State Fault Refusal :=
  .refused (.sbz15 s.pc (encodeWord (.reservedT1Sbz15 sbit rn lo15)))

/-- `RESERVED_A1_COND1111`: `refuse(word_not_in_source)` (R40, R75). -/
def execReservedA1Cond1111 (mid14 : BitVec 14) (rm : RegField) (s : State) : Host.Outcome State Fault Refusal :=
  .refused (.wordNotInSource s.pc (encodeWord (.reservedA1Cond1111 mid14 rm)))

end Sys2Proof.Machine
end

