-- ==== Sys2Proof/Machine/Operands.lean ====
section
/-! DEFINITION. Operands: register numbers, the shift immediate and the shifts (30_encoding.md R51, 40_pack_halfword.md R65). -/

namespace Sys2Proof.Machine

open Sys2Proof

/-- The register a field names: 15 is no operand (10_state.md R14). -/
def regOf (f : RegField) : Option Reg := if h : f.toNat < 15 then some ⟨f.toNat, h⟩ else none

/-- The field that names a register (30_encoding.md R57). -/
def fieldOf (r : Reg) : RegField := BitVec.ofNat 4 r.val

/-- The kinds of shift (00_scope.md R11). -/
inductive SRType where
  | lsl
  | lsr
  | asr
  | ror
  | rrx
deriving DecidableEq, Repr

/-- A shift amount whose zero field stands for 32 (30_encoding.md R51). -/
def amountOr32 (imm5 : BitVec 5) : Nat := if imm5 = 0#5 then 32 else imm5.toNat

/-- `DecodeImmShift` (R51), all four arms; Pack Halfword takes the first and the third. -/
def decodeImmShift (srtype : BitVec 2) (imm5 : BitVec 5) : SRType × Nat :=
  if srtype = 0b00#2 then (.lsl, imm5.toNat)
  else if srtype = 0b01#2 then (.lsr, amountOr32 imm5)
  else if srtype = 0b10#2 then (.asr, amountOr32 imm5)
  else if imm5 = 0#5 then (.rrx, 1)
  else (.ror, imm5.toNat)

/-- `LSL32(v, k)` = `(v * 2^k) mod 2^32` (00_scope.md R12). -/
def lsl32 (v : Word) (k : Nat) : Word := BitVec.ofNat 32 (v.toNat * 2 ^ k)

/-- `ZeroExtend(v, 32+k)<32+k-1:k>` (R65). -/
def lsr32 (v : Word) (k : Nat) : Word := (v.zeroExtend (32 + k)).extractLsb' k 32

/-- `ASR32(v, k)` = bits `[k+31:k]` of `sext_(32+k)(v)` (R12, R65). -/
def asr32 (v : Word) (k : Nat) : Word := (v.signExtend (32 + k)).extractLsb' k 32

/-- `ROR(v, k)`: PRESUMED (log entry 25, safe: no instruction reaches it), the spec names it without a body. -/
def ror32 (v : Word) (k : Nat) : Word := v.rotateRight k

/-- `carry_in : v<31:1>` (R65). -/
def rrx32 (v : Word) (carryIn : Bool) : Word := BitVec.ofBool carryIn ++ v.extractLsb' 1 31

/-- `Shift(value, srtype, amount, carry_in)` (R65), all five kinds; Pack Halfword takes LSL and ASR (R11). -/
def shift (value : Word) (kind : SRType) (amount : Nat) (carryIn : Bool) : Word :=
  if amount = 0 then value
  else
    match kind with
    | .lsl => lsl32 value amount
    | .lsr => lsr32 value amount
    | .asr => asr32 value amount
    | .ror => ror32 value amount
    | .rrx => rrx32 value carryIn

/-- The bottom halfword, bits 15:0 (00_scope.md glossary). -/
def bottom (w : Word) : Half := w.extractLsb' 0 16

/-- The top halfword, bits 31:16. -/
def top (w : Word) : Half := w.extractLsb' 16 16

end Sys2Proof.Machine
end

