-- ==== Sys2Proof/Machine/Flags.lean ====
section
/-! DEFINITION. The condition flags, the condition check and the If-Then state (10_state.md R19 to R24, 40_pack_halfword.md R64).
No instruction of the spec writes a flag (R21). -/

namespace Sys2Proof.Machine

open Sys2Proof

/-- `CondHolds(cond)` of 40_pack_halfword.md R64: the case on `cond[3:1]`, then the negation by `cond[0]`. -/
def condHolds (cond : BitVec 4) (s : State) : Bool :=
  let r :=
    match (cond.extractLsb' 1 3).toNat with
    | 0 => s.z
    | 1 => s.c
    | 2 => s.n
    | 3 => s.v
    | 4 => s.c && !s.z
    | 5 => s.n == s.v
    | 6 => (s.n == s.v) && !s.z
    | _ => true
  if cond.getLsbD 0 && cond != 15#4 then !r else r

/-- `cond_T32` (10_state.md R24). -/
def condT32 (itstate : BitVec 8) : BitVec 4 :=
  if itstate.extractLsb' 0 4 ≠ 0#4 then itstate.extractLsb' 4 4 else 0b1110#4

/-- `ITSTATE` after an instruction (R24); zero stays zero. -/
def itNext (itstate : BitVec 8) : BitVec 8 :=
  if itstate.extractLsb' 0 3 = 0#3 then 0#8
  else itstate.extractLsb' 5 3 ++ (itstate.extractLsb' 0 5 <<< 1)

/-- `ITAdvance()` (R24, 40_pack_halfword.md R72). -/
def State.itAdvance (s : State) : State :=
  if s.itstate ≠ 0#8 then { s with itstate := itNext s.itstate } else s

/-- `ITSTATE<3:0> = '0000'` with `ITSTATE<7:4> != '0000'`: the case that no well-formed state has (R24). -/
def itMalformed (itstate : BitVec 8) : Bool :=
  itstate.extractLsb' 0 4 == 0#4 && itstate.extractLsb' 4 4 != 0#4

/-- The named bits in their places in `CPSR`, over `others` for the bits that are no state of this machine, `DIT`'s among them where `P_DIT` is `absent` (R19, R22, R23, R24, R25).
The places are the spec's, from general knowledge (log entry 33, safe: no instruction reads one). -/
def State.cpsr (s : State) (others : Word) : Word :=
  BitVec.ofBool s.n ++ BitVec.ofBool s.z ++ BitVec.ofBool s.c ++ BitVec.ofBool s.v
    ++ others.extractLsb' 27 1 ++ s.itstate.extractLsb' 0 2 ++ others.extractLsb' 22 3
    ++ BitVec.ofBool (s.dit.getD (others.getLsbD 21)) ++ others.extractLsb' 16 5 ++ s.itstate.extractLsb' 2 6
    ++ others.extractLsb' 6 4 ++ BitVec.ofBool (s.iset == .t32) ++ others.extractLsb' 0 5

end Sys2Proof.Machine
end

