-- ==== Sys2Proof/Machine/PackHalfword.lean ====
section
/-! DEFINITION. The Pack Halfword instructions (40_pack_halfword.md R63 to R73). -/

namespace Sys2Proof.Machine

open Sys2Proof

/-- The value written to `R[d]` (R63): the halves `tbform` chooses. -/
def packed (tbform : Bool) (rnValue operand2 : Word) : Word :=
  if tbform then top rnValue ++ bottom operand2 else top operand2 ++ bottom rnValue

/-- `operand2` (R63, R42, R49): register `m` shifted as `DecodeImmShift(tb:'0', imm5)` says; the source passes `PSTATE.C`, which neither reachable shift uses (R20). -/
def operand2 (tbform : Bool) (imm5 : BitVec 5) (m : Reg) (s : State) : Word :=
  let sh := decodeImmShift (BitVec.ofBool tbform ++ 0#1) imm5
  shift (s.reg m) sh.1 sh.2 s.c

/-- The effect when the condition holds: both sources are read, then `x[d]` is written once (R63, R70). -/
def packWrite (tbform : Bool) (d n : Reg) (imm5 : BitVec 5) (m : Reg) (s : State) : State :=
  s.setReg d (packed tbform (s.reg n) (operand2 tbform imm5 m s))

/-- What ends every Pack Halfword, condition passed or failed (R72): the pc moves on, and in T32 `ITSTATE` advances. -/
def finish : ISet → State → State
  | .a32, s => s.advancePc
  | .t32, s => s.advancePc.itAdvance

/-- The defined instruction (R63, R66 to R69, R71). -/
def packExec (set : ISet) (cond : BitVec 4) (tbform : Bool) (d n : Reg) (imm5 : BitVec 5) (m : Reg) (s : State) : State :=
  finish set (if condHolds cond s then packWrite tbform d n imm5 m s else s)

/-- The operand check and then the instruction: a field of 15 is refused whatever the condition (R43, R50, R52); `w` is the word recorded. -/
def packChecked (set : ISet) (w : Word) (cond : BitVec 4) (tbform : Bool) (rd rn : RegField) (imm5 : BitVec 5) (rm : RegField) (s : State) :
    Host.Outcome State Fault Refusal :=
  match regOf rd, regOf rn, regOf rm with
  | some d, some n, some m => .next (packExec set cond tbform d n imm5 m s)
  | _, _, _ => .refused (.unpredictableR15 s.pc w)

/-- `PKHBT_A1` (R66). -/
def execPkhbtA1 (cond : BitVec 4) (rn rd : RegField) (imm5 : BitVec 5) (rm : RegField) (s : State) : Host.Outcome State Fault Refusal :=
  packChecked .a32 (encodeWord (.pkhbtA1 cond rn rd imm5 rm)) cond false rd rn imm5 rm s

/-- `PKHTB_A1` (R67). -/
def execPkhtbA1 (cond : BitVec 4) (rn rd : RegField) (imm5 : BitVec 5) (rm : RegField) (s : State) : Host.Outcome State Fault Refusal :=
  packChecked .a32 (encodeWord (.pkhtbA1 cond rn rd imm5 rm)) cond true rd rn imm5 rm s

/-- `PKHBT_T1` (R68): the condition is `cond_T32`. -/
def execPkhbtT1 (rn rd : RegField) (imm5 : BitVec 5) (rm : RegField) (s : State) : Host.Outcome State Fault Refusal :=
  packChecked .t32 (encodeWord (.pkhbtT1 rn rd imm5 rm)) (condT32 s.itstate) false rd rn imm5 rm s

/-- `PKHTB_T1` (R69): the condition is `cond_T32`. -/
def execPkhtbT1 (rn rd : RegField) (imm5 : BitVec 5) (rm : RegField) (s : State) : Host.Outcome State Fault Refusal :=
  packChecked .t32 (encodeWord (.pkhtbT1 rn rd imm5 rm)) (condT32 s.itstate) true rd rn imm5 rm s

/-! ### The source's own order of writes -/

/-- `R[d]<15:0> = h`. -/
def State.setBottom (s : State) (d : Reg) (h : Half) : State := s.setReg d (top (s.reg d) ++ h)

/-- `R[d]<31:16> = h`. -/
def State.setTop (s : State) (d : Reg) (h : Half) : State := s.setReg d (h ++ bottom (s.reg d))

/-- The source's Execute block line by line (R63), with its two half-writes, the second of which reads registers after the first has written; `packWrite` is the single write R70 allows in its place. -/
def packWriteHalves (tbform : Bool) (d n : Reg) (imm5 : BitVec 5) (m : Reg) (s : State) : State :=
  let op2 := operand2 tbform imm5 m s
  let s1 := s.setBottom d (if tbform then bottom op2 else bottom (s.reg n))
  s1.setTop d (if tbform then top (s1.reg n) else top op2)

end Sys2Proof.Machine
end

