-- ==== Sys2Proof/Machine/Dispatch.lean ====
section
/-! DEFINITION. The meaning of every instruction: one arm per row of the opcode table. -/

namespace Sys2Proof.Machine

open Sys2Proof

def exec (i : Instr) (s : State) : Host.Outcome State Fault Refusal :=
  match i with
  | .pkhbtA1 cond rn rd imm5 rm => Sys2Proof.Machine.execPkhbtA1 cond rn rd imm5 rm s
  | .pkhtbA1 cond rn rd imm5 rm => Sys2Proof.Machine.execPkhtbA1 cond rn rd imm5 rm s
  | .pkhbtT1 rn rd imm5 rm => Sys2Proof.Machine.execPkhbtT1 rn rd imm5 rm s
  | .pkhtbT1 rn rd imm5 rm => Sys2Proof.Machine.execPkhtbT1 rn rd imm5 rm s
  | .undefinedT1S rn lo15 => Sys2Proof.Machine.execUndefinedT1S rn lo15 s
  | .undefinedT1T rn mid10 rm => Sys2Proof.Machine.execUndefinedT1T rn mid10 rm s
  | .reservedT1Sbz15 sbit rn lo15 => Sys2Proof.Machine.execReservedT1Sbz15 sbit rn lo15 s
  | .reservedA1Cond1111 mid14 rm => Sys2Proof.Machine.execReservedA1Cond1111 mid14 rm s

end Sys2Proof.Machine
end

