-- ==== Sys2Proof/Machine/Fetch.lean ====
section
/-! DEFINITION. What comes before an instruction: the step-level refusals (60_exceptions.md R78) and the fetch (20_memory.md R30 to R34). -/

namespace Sys2Proof.Machine

open Sys2Proof

/-- Whether a T32 step is refused for its `ITSTATE` (10_state.md R24): with `P_IT = outside_only` whenever it is not zero, with `P_IT = full` when it is malformed. -/
def itRefused (p : ItSupport) (itstate : BitVec 8) : Bool :=
  match p with
  | .outsideOnly => itstate != 0#8
  | .full => itMalformed itstate

/-- The refusals that need no word, in the order R78 lists them (log entry 35). -/
def stepCheck (p : ItSupport) (s : State) : Option Refusal :=
  if !pcAligned s.iset s.pc then some (.pcMisaligned s.pc)
  else if pcWraps s.pc then some (.pcWrap s.pc)
  else if s.iset == .t32 && itRefused p s.itstate then some (.itBlock s.pc)
  else none

/-- The instruction at the pc, read from the text in the pc's instruction set (R30, R37): a word the source does not describe is refused (30_encoding.md R53), and a byte outside the text leaves the machine stuck (R34). -/
def fetchDecode (s : State) : Host.Outcome Instr Fault Refusal :=
  match decode s.iset (s.mem.fetchBytes s.pc.toNat Config.ilenBytes) with
  | .instr i _ => .next i
  | .notInSource w => .refused (.wordNotInSource s.pc w)
  | .truncated got => .fault (.fetchOutsideText (s.pc + BitVec.ofNat 32 got))

/-- All that happens before an instruction's own meaning (R52, R78). -/
def fetch (p : ItSupport) (s : State) : Host.Outcome Instr Fault Refusal :=
  match stepCheck p s with
  | some r => .refused r
  | none => fetchDecode s

/-- `s` with the word `w` of instruction set `set` placed at the pc, in memory order, and that set selected (20_memory.md R31, R37; log entry 8). -/
def State.withWord (s : State) (set : ISet) (w : Word) : State :=
  { s with iset := set, mem := s.mem.load s.pc.toNat (wordBytes set w) }

end Sys2Proof.Machine
end

