-- ==== Sys2Proof/Machine/Step.lean ====
section
/-! DEFINITION. One step of the machine: fetch, decode, execute (92_eei_decisions.md D1). -/

namespace Sys2Proof.Machine

open Sys2Proof

/-- One step, with the OPEN parameter `P_IT` as an argument (00_scope.md R4).
A marked state has no successor: it stops again with what its mark records (60_exceptions.md R75, R80). -/
def stepWith (p : ItSupport) (s : State) : Host.Outcome State Fault Refusal :=
  match s.mark with
  | some (.faulted f) => .fault f
  | some (.refused r) => .refused r
  | none =>
    match fetch p s with
    | .next i => exec i s
    | .fault f => .fault f
    | .refused r => .refused r

/-- One step with the model's setting of `P_IT`. -/
def step (s : State) : Host.Outcome State Fault Refusal := stepWith Config.pIT s

/-- `s` with the table word `w` placed where `step` fetches next, and its instruction set selected. -/
def State.withFetchWord (s : State) (nbits w : Nat) : State :=
  s.withWord (tableISet (tableValue nbits w)) (tableValue nbits w)

end Sys2Proof.Machine
end

