-- ==== Sys2Proof/Machine/Assembler.lean ====
section
/-! DEFINITION. The assembler syntax (30_encoding.md R54 to R62): assembling, disassembling and printing.
It is for writing and printing words and is no second meaning (92_eei_decisions.md D1). -/

namespace Sys2Proof.Machine

open Sys2Proof

/-- The condition mnemonics of `<c>`, in the order of their codes (R56; CS is also HS, CC is also LO). -/
inductive Cond where
  | eq | ne | cs | cc | mi | pl | vs | vc | hi | ls | ge | lt | gt | le | al
deriving DecidableEq, Repr

/-- The `cond` field of a condition (R56). -/
def Cond.code : Cond → BitVec 4
  | .eq => 0b0000#4
  | .ne => 0b0001#4
  | .cs => 0b0010#4
  | .cc => 0b0011#4
  | .mi => 0b0100#4
  | .pl => 0b0101#4
  | .vs => 0b0110#4
  | .vc => 0b0111#4
  | .hi => 0b1000#4
  | .ls => 0b1001#4
  | .ge => 0b1010#4
  | .lt => 0b1011#4
  | .gt => 0b1100#4
  | .le => 0b1101#4
  | .al => 0b1110#4

/-- The condition a `cond` field names; 1111 is not a condition (R56). -/
def condOf (code : BitVec 4) : Option Cond :=
  match code.toNat with
  | 0 => some .eq
  | 1 => some .ne
  | 2 => some .cs
  | 3 => some .cc
  | 4 => some .mi
  | 5 => some .pl
  | 6 => some .vs
  | 7 => some .vc
  | 8 => some .hi
  | 9 => some .ls
  | 10 => some .ge
  | 11 => some .lt
  | 12 => some .gt
  | 13 => some .le
  | 14 => some .al
  | _ => none

/-- The two mnemonics. -/
inductive Mnemonic where
  | pkhbt
  | pkhtb
deriving DecidableEq, Repr

/-- `<q>`: `.N` or `.W` (R56). -/
inductive Qualifier where
  | narrow
  | wide
deriving DecidableEq, Repr

/-- A written shift, `LSL #k` or `ASR #k`. -/
inductive WrittenShift where
  | lsl (k : Nat)
  | asr (k : Nat)
deriving DecidableEq, Repr

/-- One line of assembler: `<mnemonic>{<c>}{<q>} {<Rd>,} <Rn>, <Rm> {, <shift> #<imm>}` (R54, R55). -/
structure Line where
  mnemonic : Mnemonic
  cond : Option Cond
  qualifier : Option Qualifier
  rd : Option RegField
  rn : RegField
  rm : RegField
  shift : Option WrittenShift
deriving DecidableEq, Repr

/-- Where a line is assembled: the instruction set; in T32 the condition the enclosing IT block gives the instruction, if any (R56); and whether `#0` is accepted (R61, U14). -/
structure AsmContext where
  iset : ISet
  itCond : Option Cond
  acceptZero : Bool
deriving DecidableEq, Repr

/-- Why a line has no encoding. -/
inductive AsmError where
  /-- `.N`: there is no 16-bit encoding (R56). -/
  | narrow
  /-- In T32, `<c>` is not the condition of the IT block, or is a condition other than AL outside one (R56). -/
  | condition
  /-- `PC` as an operand (R57). -/
  | registerPc
  /-- `LSL` written for PKHTB or `ASR` for PKHBT (R54, R55). -/
  | wrongShift
  /-- `#0`, not accepted by this assembler (R61). -/
  | zeroShift
  /-- `LSL #32` and above, `ASR #33` and above (R58, R59). -/
  | shiftRange
deriving DecidableEq, Repr

/-- The result of assembling a line. -/
inductive Assembled where
  | ok (i : Instr)
  | error (e : AsmError)
deriving DecidableEq, Repr

/-- The fields a line's mnemonic, sources and shift stand for. -/
inductive LineFields where
  | fields (tbform : Bool) (rn : RegField) (imm5 : BitVec 5) (rm : RegField)
  | error (e : AsmError)
deriving DecidableEq, Repr

/-- PKHTB without a shift: PKHBT with the source registers exchanged and no shift (R60). -/
def pseudoFields (l : Line) : LineFields := .fields false l.rm 0#5 l.rn

/-- The fields of a line (R58, R59, R60, R61). -/
def lineFields (acceptZero : Bool) (l : Line) : LineFields :=
  match l.mnemonic, l.shift with
  | .pkhbt, none => .fields false l.rn 0#5 l.rm
  | .pkhbt, some (.lsl k) =>
    if k = 0 then (if acceptZero then .fields false l.rn 0#5 l.rm else .error .zeroShift)
    else if k ≤ 31 then .fields false l.rn (BitVec.ofNat 5 k) l.rm
    else .error .shiftRange
  | .pkhbt, some (.asr _) => .error .wrongShift
  | .pkhtb, none => pseudoFields l
  | .pkhtb, some (.asr k) =>
    if k = 0 then (if acceptZero then pseudoFields l else .error .zeroShift)
    else if k = 32 then .fields true l.rn 0#5 l.rm
    else if k ≤ 31 then .fields true l.rn (BitVec.ofNat 5 k) l.rm
    else .error .shiftRange
  | .pkhtb, some (.lsl _) => .error .wrongShift

/-- The instruction with the given fields in one of the two instruction sets. -/
def instrOf (set : ISet) (cond : BitVec 4) (tbform : Bool) (rn rd : RegField) (imm5 : BitVec 5) (rm : RegField) : Instr :=
  match set, tbform with
  | .a32, false => .pkhbtA1 cond rn rd imm5 rm
  | .a32, true => .pkhtbA1 cond rn rd imm5 rm
  | .t32, false => .pkhbtT1 rn rd imm5 rm
  | .t32, true => .pkhtbT1 rn rd imm5 rm

/-- The condition a line asks for; omitted it is AL (R56). -/
def Line.condition (l : Line) : Cond := l.cond.getD .al

/-- The destination of a line; omitted it is `<Rn>` (R57). -/
def Line.destination (l : Line) : RegField := l.rd.getD l.rn

/-- `<c>` may stand here (R56): always in A32; in T32 only as the condition the IT block gives, AL outside one. -/
def condAllowed (ctx : AsmContext) (l : Line) : Bool :=
  match ctx.iset with
  | .a32 => true
  | .t32 => l.condition == ctx.itCond.getD .al

/-- Assembling one line (R54 to R61). -/
def assemble (ctx : AsmContext) (l : Line) : Assembled :=
  if l.qualifier = some .narrow then .error .narrow
  else if !condAllowed ctx l then .error .condition
  else if ¬ RegsDefined l.destination l.rn l.rm then .error .registerPc
  else
    match lineFields ctx.acceptZero l with
    | .error e => .error e
    | .fields tbform rn imm5 rm => .ok (instrOf ctx.iset l.condition.code tbform rn l.destination imm5 rm)

/-- A condition as it is printed: AL is omitted. -/
def printedCond (cond : Cond) : Option Cond := if cond = .al then none else some cond

/-- The line of a PKHBT: a zero field has no shift (R61). -/
def pkhbtLine (cond : Cond) (rn rd : RegField) (imm5 : BitVec 5) (rm : RegField) : Line :=
  ⟨.pkhbt, printedCond cond, none, some rd, rn, rm, if imm5 = 0#5 then none else some (.lsl imm5.toNat)⟩

/-- The line of a PKHTB: a zero field is `ASR #32` (R61). -/
def pkhtbLine (cond : Cond) (rn rd : RegField) (imm5 : BitVec 5) (rm : RegField) : Line :=
  ⟨.pkhtb, printedCond cond, none, some rd, rn, rm, some (.asr (amountOr32 imm5))⟩

/-- Disassembling (R61, R62): `itCond` is the condition of the enclosing IT block in T32.
What is not a defined PKHBT or PKHTB has no line. -/
def disassemble (itCond : Option Cond) (i : Instr) : Option Line :=
  if i.defined then
    match i with
    | .pkhbtA1 cond rn rd imm5 rm => (condOf cond).map fun c => pkhbtLine c rn rd imm5 rm
    | .pkhtbA1 cond rn rd imm5 rm => (condOf cond).map fun c => pkhtbLine c rn rd imm5 rm
    | .pkhbtT1 rn rd imm5 rm => some (pkhbtLine (itCond.getD .al) rn rd imm5 rm)
    | .pkhtbT1 rn rd imm5 rm => some (pkhtbLine (itCond.getD .al) rn rd imm5 rm)
    | .undefinedT1S .. => none
    | .undefinedT1T .. => none
    | .reservedT1Sbz15 .. => none
    | .reservedA1Cond1111 .. => none
  else none

/-! ### Printing -/

/-- The spelling of a condition (R56). -/
def Cond.text : Cond → String
  | .eq => "EQ"
  | .ne => "NE"
  | .cs => "CS"
  | .cc => "CC"
  | .mi => "MI"
  | .pl => "PL"
  | .vs => "VS"
  | .vc => "VC"
  | .hi => "HI"
  | .ls => "LS"
  | .ge => "GE"
  | .lt => "LT"
  | .gt => "GT"
  | .le => "LE"
  | .al => "AL"

/-- The spelling of a register: SP, LR and PC for 13, 14 and 15 (R57; log entry 31). -/
def regText (r : RegField) : String :=
  match r.toNat with
  | 13 => "SP"
  | 14 => "LR"
  | 15 => "PC"
  | k => "R" ++ toString k

/-- The spelling of a mnemonic. -/
def Mnemonic.text : Mnemonic → String
  | .pkhbt => "PKHBT"
  | .pkhtb => "PKHTB"

/-- The spelling of a qualifier (R56). -/
def Qualifier.text : Qualifier → String
  | .narrow => ".N"
  | .wide => ".W"

/-- The spelling of a written shift, with the comma before it (R54, R55). -/
def WrittenShift.text : WrittenShift → String
  | .lsl k => ", LSL #" ++ toString k
  | .asr k => ", ASR #" ++ toString k

/-- The text of a part that may be omitted. -/
def optText {α : Type} (text : α → String) : Option α → String
  | none => ""
  | some a => text a

/-- A line as text (R54, R55). -/
def Line.text (l : Line) : String :=
  l.mnemonic.text ++ optText Cond.text l.cond ++ optText Qualifier.text l.qualifier ++ " "
    ++ optText (fun r => regText r ++ ", ") l.rd ++ regText l.rn ++ ", " ++ regText l.rm
    ++ optText WrittenShift.text l.shift

end Sys2Proof.Machine
end

