-- ==== Sys2Proof/Machine/Footprint.lean ====
section
/-! DEFINITION. What an instruction depends on: its condition (40_pack_halfword.md R64), the registers it reads and writes (10_state.md R16), and the premises of the timing promise (70_reset_and_hazards.md R86). -/

namespace Sys2Proof.Machine

open Sys2Proof

/-- `CurrentCond()` (R64): the `cond` field in A32, `cond_T32` in T32; the neighbouring words have no condition check. -/
def currentCond : Instr → State → Option (BitVec 4)
  | .pkhbtA1 cond .., _ => some cond
  | .pkhtbA1 cond .., _ => some cond
  | .pkhbtT1 .., s => some (condT32 s.itstate)
  | .pkhtbT1 .., s => some (condT32 s.itstate)
  | .undefinedT1S .., _ => none
  | .undefinedT1T .., _ => none
  | .reservedT1Sbz15 .., _ => none
  | .reservedA1Cond1111 .., _ => none

/-- `ConditionPassed()` (R64). -/
def conditionPassed (i : Instr) (s : State) : Bool :=
  match currentCond i s with
  | some cond => condHolds cond s
  | none => false

/-- The register fields of an instruction that has them: `Rd`, `Rn`, `Rm`. -/
def regFields : Instr → Option (RegField × RegField × RegField)
  | .pkhbtA1 _ rn rd _ rm => some (rd, rn, rm)
  | .pkhtbA1 _ rn rd _ rm => some (rd, rn, rm)
  | .pkhbtT1 rn rd _ rm => some (rd, rn, rm)
  | .pkhtbT1 rn rd _ rm => some (rd, rn, rm)
  | .undefinedT1S .. => none
  | .undefinedT1T .. => none
  | .reservedT1Sbz15 .. => none
  | .reservedA1Cond1111 .. => none

/-- The general-purpose registers the instruction reads in state `s` (R16, R71): `x[m]` and `x[n]`, or none when the condition fails. -/
def regsRead (i : Instr) (s : State) : List Reg :=
  match regFields i with
  | some (_, rn, rm) => if conditionPassed i s then (regOf rm).toList ++ (regOf rn).toList else []
  | none => []

/-- The general-purpose registers the instruction writes in state `s` (R16, R71): `x[d]`, or none when the condition fails. -/
def regsWritten (i : Instr) (s : State) : List Reg :=
  match regFields i with
  | some (rd, _, _) => if conditionPassed i s then (regOf rd).toList else []
  | none => []

/-- The three premises under which the source promises data-independent timing (R86): `CPSR.DIT` is 1 (so it exists), the condition passed, and no field names register 15.
The promise itself is about time, which the model has not (log entry 32). -/
def timingPromise (i : Instr) (s : State) : Bool := s.dit == some true && conditionPassed i s && i.defined

end Sys2Proof.Machine
end

