-- ==== Sys2Proof/Machine/Run.lean ====
section
/-! DEFINITION. Launch, run and observation (10_state.md R27, 70_reset_and_hazards.md R83, R84), and the marks (60_exceptions.md R74, R75, R80). -/

namespace Sys2Proof.Machine

open Sys2Proof

/-- `LAUNCH`: the state at the start of a run, which the world outside gives, and the address that ends the run (R83, R84). -/
structure Launch where
  regs : Vector Word 15
  pc : Word
  n : Bool
  z : Bool
  c : Bool
  v : Bool
  dit : Option Bool
  iset : ISet
  itstate : BitVec 8
  text : Memory
  endAddr : Word
deriving DecidableEq, Repr

/-- The launch state: the marks start clear (R83). -/
def Launch.state (l : Launch) : State where
  regs := l.regs
  pc := l.pc
  n := l.n
  z := l.z
  c := l.c
  v := l.v
  dit := l.dit
  iset := l.iset
  itstate := l.itstate
  mem := l.text
  mark := none

/-- What R84 asks of a launch before its first step, under the two OPEN parameters of the machine (00_scope.md R4): the pc aligned, `ITSTATE` zero unless `P_IT = full` and well-formed, the text in canonical form, and `DIT` given exactly if `P_DIT` says it exists (10_state.md R27).
That the text covers every address a fetch reaches is a fact about the run (`RunEnd.stuck`). -/
def Launch.ok (p : ItSupport) (d : DitSupport) (l : Launch) : Bool :=
  pcAligned l.iset l.pc && decide (Memory.wf l.text) && !itMalformed l.itstate
    && (l.itstate == 0#8 || (p == .full && l.iset == .t32)) && l.state.ditSupport == d

/-- The state with what a stopped step records (R74, R75): a fault or a refusal sets the mark and changes nothing else; a stuck machine has no step and records nothing (20_memory.md R34). -/
def recorded (s : State) : Host.Outcome State Fault Refusal → State
  | .next t => t
  | .fault (.undefinedInstruction pc w) => { s with mark := some (.faulted (.undefinedInstruction pc w)) }
  | .fault (.fetchOutsideText _) => s
  | .refused r => { s with mark := some (.refused r) }

/-- The machine's transition with its marks: the successor of `s`, or `s` marked, or `s` itself where there is no step. -/
def advance (p : ItSupport) (s : State) : State := recorded s (stepWith p s)

/-- A run is over: the pc is the end address and no mark is recorded (R84). -/
def isOver (endAddr : Word) (s : State) : Bool := s.pc == endAddr && s.mark == none

/-- How a run ends. -/
inductive RunEnd where
  /-- Over, in its final state (R84). -/
  | finished (s : State)
  /-- Marked with a fault or a refusal: never final (R74, R75). -/
  | marked (s : State)
  /-- Stuck: the next instruction is outside the text (20_memory.md R34). -/
  | stuck (s : State)
  /-- Not over after the steps allowed. -/
  | running (s : State)
deriving DecidableEq, Repr

/-- A run of at most `k` steps: it ends as soon as it is over, so that the instruction at the end address is not fetched (R84). -/
def run (p : ItSupport) (endAddr : Word) : Nat → State → RunEnd
  | 0, s => if isOver endAddr s then .finished s else .running s
  | k + 1, s =>
    if isOver endAddr s then .finished s
    else
      match stepWith p s with
      | .next t => run p endAddr k t
      | .fault (.fetchOutsideText _) => .stuck s
      | .fault (.undefinedInstruction pc w) => .marked (recorded s (.fault (.undefinedInstruction pc w)))
      | .refused r => .marked (recorded s (.refused r))

/-- What can be observed of a finished run (R84): registers, flags, pc, `iset` and `ITSTATE`; no memory and no time. -/
structure Observation where
  regs : Vector Word 15
  n : Bool
  z : Bool
  c : Bool
  v : Bool
  pc : Word
  iset : ISet
  itstate : BitVec 8
deriving DecidableEq, Repr

/-- The observation of a state. -/
def State.observation (s : State) : Observation := ⟨s.regs, s.n, s.z, s.c, s.v, s.pc, s.iset, s.itstate⟩

/-- The observable result of a run: only a run that is over has one (R84). -/
def RunEnd.observed : RunEnd → Option Observation
  | .finished s => some s.observation
  | .marked _ => none
  | .stuck _ => none
  | .running _ => none

end Sys2Proof.Machine
end

