-- ==== Sys2Proof/Safety.lean ====
section
/-! DEFINITION. What the statements speak of: the machine's invariant, the parts of the state no instruction changes, and safe runs. -/

namespace Sys2Proof.Machine

open Sys2Proof

/-- `ITSTATE` is one a well-formed state has (10_state.md R24): zero in A32 state, and never `ITSTATE<3:0> = 0` with `ITSTATE<7:4>` not zero. -/
abbrev ItWellFormed (set : ISet) (itstate : BitVec 8) : Prop :=
  (set = .a32 → itstate = 0#8) ∧ itMalformed itstate = false

/-- The machine's invariant: the text in canonical form (log entry 20), the pc aligned for the instruction set (20_memory.md R32), `ITSTATE` well-formed (10_state.md R24). -/
abbrev State.Inv (s : State) : Prop :=
  Memory.wf s.mem ∧ pcAligned s.iset s.pc = true ∧ ItWellFormed s.iset s.itstate

/-- `t` keeps all of `s` that no instruction may change (10_state.md R25): flags, `DIT`, `iset`, program text and mark. -/
abbrev KeepsFixed (s t : State) : Prop :=
  t.n = s.n ∧ t.z = s.z ∧ t.c = s.c ∧ t.v = s.v ∧ t.dit = s.dit ∧ t.iset = s.iset ∧ t.mem = s.mem ∧ t.mark = s.mark

/-- The flags are the same. -/
abbrev SameFlags (s t : State) : Prop := t.n = s.n ∧ t.z = s.z ∧ t.c = s.c ∧ t.v = s.v

/-- A run of `k` steps is safe when it meets no fault, no refusal and no stuck state (60_exceptions.md R74, R75; 20_memory.md R34). -/
def SafeRun (p : ItSupport) (endAddr : Word) (k : Nat) (s : State) : Prop :=
  ∃ t, run p endAddr k s = .finished t ∨ run p endAddr k s = .running t

/-- A word's bytes stand at the pc, in the order its instruction set gives them (20_memory.md R31). -/
abbrev TextHolds (s : State) (w : Word) : Prop :=
  s.mem.fetchBytes s.pc.toNat 4 = wordBytes s.iset w

/-- Nothing stops the step before its word is decoded: no mark, and none of R78's step-level refusals. -/
abbrev StepReady (p : ItSupport) (s : State) : Prop := s.mark = none ∧ stepCheck p s = none

end Sys2Proof.Machine
end

