-- ==== Sys2Proof/Certificates/Slice0/Obligations.lean ====
section
/-! DEFINITION. The statements for the provers, from the numbered rules of spec/.
Each docstring names the rule it formalises; where a rule's clause is marked in spec/ as that spec's own decision or as general knowledge, the docstring names the decision or the log entry. -/

open Sys2Proof Sys2Proof.Machine

/-! ### Reset and launch -/

/-- The reset state, under either setting of `P_DIT`, meets the invariant and has `DIT` exactly if the setting says so; its `ITSTATE` is zero and its marks are clear, as 10_state.md R27 gives them (by 92_eei_decisions.md D9 and D18).
That the pc is aligned rests on the model's choices of pc and `iset` at reset (log entries 3 and 4). -/
def Obligations.ResetMeetsInvariant : Prop :=
  ∀ d : DitSupport, (State.resetOf d).Inv ∧ (State.resetOf d).ditSupport = d ∧
    (State.resetOf d).itstate = 0#8 ∧ (State.resetOf d).mark = none

/-- A launch that meets R84's requirements, under any setting of the OPEN parameters `P_IT` and `P_DIT`, starts in a state that meets the invariant, unmarked, and that no step-level check but the wrap of the pc refuses (decisions D18, D23). -/
def Obligations.LaunchMeetsInvariant : Prop :=
  ∀ (p : ItSupport) (d : DitSupport) (l : Launch), l.ok p d = true →
    l.state.Inv ∧ l.state.mark = none ∧ (pcWraps l.pc = false → stepCheck p l.state = none)

/-! ### Encoding -/

/-- Decoding the bytes of any encodable instruction, with any bytes after them, gives it back with those bytes: every field at every value (30_encoding.md R38, R44, R40, R46, R47; byte order by decision D12). -/
def Obligations.DecodeOfEncode : Prop :=
  ∀ (i : Instr) (rest : List Byte), i.wellFormed = true → decode i.iset (encode i ++ rest) = .instr i rest

/-- What decodes to an instruction is that instruction's own bytes, it is encodable, and it is of the set that was decoded: no bit of a word is dropped. -/
def Obligations.EncodeOfDecode : Prop :=
  ∀ (set : ISet) (bs rest : List Byte) (i : Instr), decode set bs = .instr i rest →
    encode i ++ rest = bs ∧ i.wellFormed = true ∧ i.iset = set

/-- The A1 words and their fields (R38, R39), the mnemonic chosen by bit 6 (R41). -/
def Obligations.A1WordsAndFields : Prop :=
  ∀ w : Word,
    (∀ cond rn rd imm5 rm, decodeA32Word w = some (.pkhbtA1 cond rn rd imm5 rm) ↔
      w &&& 0x0FF00070#32 = 0x06800010#32 ∧ w.extractLsb' 28 4 ≠ 15#4 ∧ cond = w.extractLsb' 28 4 ∧ rn = w.extractLsb' 16 4 ∧
        rd = w.extractLsb' 12 4 ∧ imm5 = w.extractLsb' 7 5 ∧ rm = w.extractLsb' 0 4) ∧
    (∀ cond rn rd imm5 rm, decodeA32Word w = some (.pkhtbA1 cond rn rd imm5 rm) ↔
      w &&& 0x0FF00070#32 = 0x06800050#32 ∧ w.extractLsb' 28 4 ≠ 15#4 ∧ cond = w.extractLsb' 28 4 ∧ rn = w.extractLsb' 16 4 ∧
        rd = w.extractLsb' 12 4 ∧ imm5 = w.extractLsb' 7 5 ∧ rm = w.extractLsb' 0 4) ∧
    ((∃ i, decodeA32Word w = some i ∧ ∃ cond rn rd imm5 rm, i = .pkhbtA1 cond rn rd imm5 rm ∨ i = .pkhtbA1 cond rn rd imm5 rm) ↔
      w &&& 0x0FF00030#32 = 0x06800010#32 ∧ w.extractLsb' 28 4 ≠ 15#4)

/-- The T1 words and their fields (R44, R45), the shift field joined from `imm3:imm2` (R49), the mnemonic chosen by bit 5 (R48). -/
def Obligations.T1WordsAndFields : Prop :=
  ∀ w : Word,
    (∀ rn rd imm5 rm, decodeT32Word w = some (.pkhbtT1 rn rd imm5 rm) ↔
      w &&& 0xFFF08030#32 = 0xEAC00000#32 ∧ rn = w.extractLsb' 16 4 ∧ rd = w.extractLsb' 8 4 ∧
        imm5 = w.extractLsb' 12 3 ++ w.extractLsb' 6 2 ∧ rm = w.extractLsb' 0 4) ∧
    (∀ rn rd imm5 rm, decodeT32Word w = some (.pkhtbT1 rn rd imm5 rm) ↔
      w &&& 0xFFF08030#32 = 0xEAC00020#32 ∧ rn = w.extractLsb' 16 4 ∧ rd = w.extractLsb' 8 4 ∧
        imm5 = w.extractLsb' 12 3 ++ w.extractLsb' 6 2 ∧ rm = w.extractLsb' 0 4) ∧
    ((∃ i, decodeT32Word w = some i ∧ ∃ rn rd imm5 rm, i = .pkhbtT1 rn rd imm5 rm ∨ i = .pkhtbT1 rn rd imm5 rm) ↔
      w &&& 0xFFF08010#32 = 0xEAC00000#32)

/-- Some of the words of 95_test_vectors.md section 3, as bytes in memory order, decode to what they stand for. -/
def Obligations.SpecWordsDecode : Prop :=
  decode .a32 [0x12, 0x08, 0x81, 0xE6] = .instr (.pkhbtA1 14 1 0 16 2) [] ∧
  decode .a32 [0x99, 0x71, 0x88, 0x06] = .instr (.pkhbtA1 0 8 7 3 9) [] ∧
  decode .a32 [0xDD, 0xC3, 0x8E, 0x16] = .instr (.pkhtbA1 1 14 12 7 13) [] ∧
  decode .t32 [0xC8, 0xEA, 0xC9, 0x07] = .instr (.pkhbtT1 8 7 3 9) [] ∧
  decode .t32 [0xCE, 0xEA, 0xED, 0x1C] = .instr (.pkhtbT1 14 12 7 13) [] ∧
  decode .t32 [0xD1, 0xEA, 0x02, 0x40] = .instr (.undefinedT1S 1 0x4002) [] ∧
  decode .t32 [0xC1, 0xEA, 0x12, 0x40] = .instr (.undefinedT1T 1 0x200 2) [] ∧
  decode .t32 [0xC1, 0xEA, 0x02, 0xC0] = .instr (.reservedT1Sbz15 0 1 0x4002) [] ∧
  decode .a32 [0x12, 0x08, 0x81, 0xF6] = .instr (.reservedA1Cond1111 0x420 2) []

/-! ### A step and its word -/

/-- When nothing stops the step before its word and the bytes at the pc decode to an instruction, the step is that instruction's `exec`. -/
def Obligations.StepRunsDecodedInstruction : Prop :=
  ∀ (p : ItSupport) (s : State) (i : Instr) (rest : List Byte), StepReady p s →
    decode s.iset (s.mem.fetchBytes s.pc.toNat 4) = .instr i rest → stepWith p s = exec i s

/-- The outcome of every word in A32 state, by the checks in their order (30_encoding.md R52, R53; decisions D3, D6, D7, D8). -/
def Obligations.A32WordOutcomes : Prop :=
  ∀ (p : ItSupport) (s : State) (w : Word), StepReady p s → s.iset = .a32 → TextHolds s w →
    if w &&& 0x0FF00030#32 ≠ 0x06800010#32 ∨ w.extractLsb' 28 4 = 15#4 then
      stepWith p s = .refused (.wordNotInSource s.pc w)
    else if w.extractLsb' 12 4 = 15#4 ∨ w.extractLsb' 16 4 = 15#4 ∨ w.extractLsb' 0 4 = 15#4 then
      stepWith p s = .refused (.unpredictableR15 s.pc w)
    else ∃ t, stepWith p s = .next t

/-- The outcome of every instruction in T32 state, by the checks in their order (20_memory.md R30, 30_encoding.md R52, R53; decisions D1, D3, D4, D5, D7, D8).
A 16-bit instruction is recorded zero-extended (log entry 27). -/
def Obligations.T32WordOutcomes : Prop :=
  ∀ (p : ItSupport) (s : State), StepReady p s → s.iset = .t32 →
    (∀ hw1 : Half, s.mem.fetchBytes s.pc.toNat 2 = halfBytes hw1 →
      hw1.extractLsb' 11 5 ≠ 0b11101#5 → hw1.extractLsb' 11 5 ≠ 0b11110#5 → hw1.extractLsb' 11 5 ≠ 0b11111#5 →
      stepWith p s = .refused (.wordNotInSource s.pc (hw1.zeroExtend 32))) ∧
    (∀ w : Word, TextHolds s w →
      w.extractLsb' 27 5 = 0b11101#5 ∨ w.extractLsb' 27 5 = 0b11110#5 ∨ w.extractLsb' 27 5 = 0b11111#5 →
      if w.extractLsb' 21 11 ≠ 0b11101010110#11 then stepWith p s = .refused (.wordNotInSource s.pc w)
      else if w.getLsbD 15 then stepWith p s = .refused (.sbz15 s.pc w)
      else if w.getLsbD 20 ∨ w.getLsbD 4 then stepWith p s = .fault (.undefinedInstruction s.pc w)
      else if w.extractLsb' 8 4 = 15#4 ∨ w.extractLsb' 16 4 = 15#4 ∨ w.extractLsb' 0 4 = 15#4 then
        stepWith p s = .refused (.unpredictableR15 s.pc w)
      else ∃ t, stepWith p s = .next t)

/-- A T32 word with the T1 bits 31:21 and `S` or `T` set is UNDEFINED, unless bit 15 is set (30_encoding.md R46).
That the model stops there, recording pc and word, is decision D4. -/
def Obligations.T1UndefinedWordsFault : Prop :=
  ∀ (p : ItSupport) (s : State) (w : Word), StepReady p s → s.iset = .t32 → TextHolds s w →
    w &&& 0xFFE00000#32 = 0xEAC00000#32 → (w.getLsbD 20 = true ∨ w.getLsbD 4 = true) → w.getLsbD 15 = false →
    stepWith p s = .fault (.undefinedInstruction s.pc w)

/-! ### Before the word: alignment, wrap, IT block, text -/

/-- An unmarked state with a misaligned pc is refused for that, whatever else would stop its step, and every step leaves an aligned pc (20_memory.md R32; decision D13).
That the misaligned pc comes before the wrap, the IT block and the fetch is the model's reading of the order in which 60_exceptions.md R78 lists them (log entry 35, DEDUCED). -/
def Obligations.MisalignedPcIsRefused : Prop :=
  (∀ (p : ItSupport) (s : State), s.mark = none →
    ((s.iset = .a32 ∧ s.pc.toNat % 4 ≠ 0) ∨ (s.iset = .t32 ∧ s.pc.toNat % 2 ≠ 0)) →
    stepWith p s = .refused (.pcMisaligned s.pc)) ∧
  (∀ (p : ItSupport) (s t : State), stepWith p s = .next t →
    (s.iset = .a32 → s.pc.toNat % 4 = 0 ∧ t.pc.toNat % 4 = 0) ∧ (s.iset = .t32 → s.pc.toNat % 2 = 0 ∧ t.pc.toNat % 2 = 0))

/-- Every step moves the pc on by 4, without wrapping; a step whose `pc + 4` leaves the address space is refused, and the last admitted addresses are those R18 names (10_state.md R18; decision D10).
That the wrap comes before the IT block and the fetch is the model's reading of 60_exceptions.md R78 (log entry 35, DEDUCED). -/
def Obligations.PcAdvancesByFourOrIsRefused : Prop :=
  (∀ (p : ItSupport) (s t : State), stepWith p s = .next t → t.pc.toNat = s.pc.toNat + 4) ∧
  (∀ (p : ItSupport) (s : State), s.mark = none → pcAligned s.iset s.pc = true → s.pc.toNat + 4 > 2 ^ 32 - 1 →
    stepWith p s = .refused (.pcWrap s.pc)) ∧
  (∀ (set : ISet) (pc : Word), pcAligned set pc = true →
    (pcWraps pc = false ↔ pc.toNat ≤ match set with | .a32 => 0xFFFFFFF8 | .t32 => 0xFFFFFFFA))

/-- `ITSTATE` (10_state.md R24, from general knowledge, decision D9, log entry 24): how a step advances it, which T32 steps are refused for it under each setting of `P_IT`, and that A32 steps leave it.
That the IT block comes before the fetch is the model's reading of 60_exceptions.md R78 (log entry 35, DEDUCED). -/
def Obligations.ItStateRule : Prop :=
  (∀ (p : ItSupport) (s t : State), stepWith p s = .next t →
    (s.iset = .a32 → t.itstate = s.itstate) ∧
    (s.iset = .t32 → t.itstate =
      if s.itstate.extractLsb' 0 3 = 0#3 then 0#8 else s.itstate.extractLsb' 5 3 ++ (s.itstate.extractLsb' 0 5 <<< 1))) ∧
  (∀ (p : ItSupport) (s : State), s.mark = none → s.iset = .t32 → pcAligned .t32 s.pc = true → s.pc.toNat + 4 ≤ 2 ^ 32 - 1 →
    (p = .outsideOnly ∧ s.itstate ≠ 0#8 ∨ p = .full ∧ s.itstate.extractLsb' 0 4 = 0#4 ∧ s.itstate.extractLsb' 4 4 ≠ 0#4) →
    stepWith p s = .refused (.itBlock s.pc))

/-- Outside IT blocks the two settings of `P_IT` are one machine, and a T32 run that starts outside stays outside (decision D9). -/
def Obligations.ItSettingsAgreeOutsideBlocks : Prop :=
  ∀ s : State, s.itstate = 0#8 →
    stepWith .outsideOnly s = stepWith .full s ∧ ∀ (p : ItSupport) (t : State), stepWith p s = .next t → t.itstate = 0#8

/-- The places of the named bits in `CPSR` (10_state.md R19, R22, R23, R24, from general knowledge, log entry 33); every other bit is taken from outside the machine, and so is bit 21 where `DIT` does not exist (`P_DIT`, 00_scope.md R4). -/
def Obligations.CpsrPlaces : Prop :=
  ∀ (s : State) (others : Word),
    (s.cpsr others).getLsbD 31 = s.n ∧ (s.cpsr others).getLsbD 30 = s.z ∧ (s.cpsr others).getLsbD 29 = s.c ∧
    (s.cpsr others).getLsbD 28 = s.v ∧ (s.cpsr others).getLsbD 21 = s.dit.getD (others.getLsbD 21) ∧
    (s.cpsr others).getLsbD 5 = (s.iset == .t32) ∧
    (s.cpsr others).extractLsb' 10 6 = s.itstate.extractLsb' 2 6 ∧ (s.cpsr others).extractLsb' 25 2 = s.itstate.extractLsb' 0 2 ∧
    (s.cpsr others).getLsbD 27 = others.getLsbD 27 ∧ (s.cpsr others).extractLsb' 22 3 = others.extractLsb' 22 3 ∧
    (s.cpsr others).extractLsb' 16 5 = others.extractLsb' 16 5 ∧ (s.cpsr others).extractLsb' 6 4 = others.extractLsb' 6 4 ∧
    (s.cpsr others).extractLsb' 0 5 = others.extractLsb' 0 5

/-- A fetch that needs a byte outside the program text is stuck at the first such byte: there is no step and nothing is recorded (20_memory.md R34, decision D14; that a stuck machine is named by a fault is log entry 7). -/
def Obligations.FetchOutsideTextIsStuck : Prop :=
  ∀ (p : ItSupport) (s : State) (k : Nat), StepReady p s → k = (s.mem.fetchBytes s.pc.toNat 4).length →
    (s.iset = .a32 ∧ k < 4 ∨ s.iset = .t32 ∧ k < 2 ∨
      s.iset = .t32 ∧ k < 4 ∧ ∃ hw1, s.mem.fetchBytes s.pc.toNat 2 = halfBytes hw1 ∧ isWide hw1 = true) →
    stepWith p s = .fault (.fetchOutsideText (s.pc + BitVec.ofNat 32 k)) ∧
    (s.pc + BitVec.ofNat 32 k).toNat = s.pc.toNat + k ∧ s.mem.read (s.pc.toNat + k) = none ∧ advance p s = s

/-- What the model answers with a fault is an UNDEFINED word (60_exceptions.md R74, R76) or a fetch outside the text, and nothing else.
The spec gives a fetch outside the text no step at all (20_memory.md R34); that the model answers it with the fault `fetchOutsideText` is the model's choice (log entry 7, DESIGN CHOICE). -/
def Obligations.OnlyUndefinedAndStuckFault : Prop :=
  ∀ (p : ItSupport) (s : State) (f : Fault), s.mark = none → stepWith p s = .fault f →
    (s.iset = .t32 ∧ ∃ w, TextHolds s w ∧ w &&& 0xFFE00000#32 = 0xEAC00000#32 ∧ w.getLsbD 15 = false ∧
      (w.getLsbD 20 = true ∨ w.getLsbD 4 = true) ∧ f = .undefinedInstruction s.pc w) ∨
    (∃ k < 4, f = .fetchOutsideText (s.pc + BitVec.ofNat 32 k) ∧ s.mem.read (s.pc.toNat + k) = none)

/-! ### Conditions, shifts and operands -/

/-- The sixteen conditions spelled out, and that the check reads the four flags alone (40_pack_halfword.md R64, from general knowledge, decision D24, log entry 23). -/
def Obligations.ConditionTable : Prop :=
  (∀ s : State,
    condHolds 0b0000#4 s = s.z ∧ condHolds 0b0001#4 s = !s.z ∧ condHolds 0b0010#4 s = s.c ∧ condHolds 0b0011#4 s = !s.c ∧
    condHolds 0b0100#4 s = s.n ∧ condHolds 0b0101#4 s = !s.n ∧ condHolds 0b0110#4 s = s.v ∧ condHolds 0b0111#4 s = !s.v ∧
    condHolds 0b1000#4 s = (s.c && !s.z) ∧ condHolds 0b1001#4 s = (!s.c || s.z) ∧
    condHolds 0b1010#4 s = (s.n == s.v) ∧ condHolds 0b1011#4 s = (s.n != s.v) ∧
    condHolds 0b1100#4 s = (!s.z && (s.n == s.v)) ∧ condHolds 0b1101#4 s = (s.z || (s.n != s.v)) ∧
    condHolds 0b1110#4 s = true ∧ condHolds 0b1111#4 s = true) ∧
  (∀ (s t : State) (cond : BitVec 4), SameFlags s t → condHolds cond t = condHolds cond s)

/-- `DecodeImmShift`, arm by arm, and the two arms Pack Halfword takes (30_encoding.md R51; the two others from general knowledge, log entry 25). -/
def Obligations.DecodeImmShiftArms : Prop :=
  ∀ imm5 : BitVec 5,
    decodeImmShift (0#1 ++ 0#1) imm5 = (.lsl, imm5.toNat) ∧
    decodeImmShift (1#1 ++ 0#1) imm5 = (.asr, if imm5 = 0#5 then 32 else imm5.toNat) ∧
    decodeImmShift 0b01#2 imm5 = (.lsr, if imm5 = 0#5 then 32 else imm5.toNat) ∧
    decodeImmShift 0b11#2 imm5 = (if imm5 = 0#5 then (.rrx, 1) else (.ror, imm5.toNat))

/-- The shifts bit by bit: LSL by 0 to 31, ASR by 1 to 32, and LSR and RRX, which no instruction reaches; a shift by 0 returns the value (40_pack_halfword.md R65, from general knowledge, decision D24). -/
def Obligations.ShiftBits : Prop :=
  ∀ (v : Word) (carry : Bool),
    (∀ kind, shift v kind 0 carry = v) ∧
    (∀ k i, k ≤ 31 → i < 32 → (shift v .lsl k carry).getLsbD i = (decide (k ≤ i) && v.getLsbD (i - k))) ∧
    (∀ k i, 1 ≤ k → k ≤ 32 → i < 32 → (shift v .asr k carry).getLsbD i = if i + k ≤ 31 then v.getLsbD (i + k) else v.getLsbD 31) ∧
    (∀ k i, 1 ≤ k → k ≤ 32 → i < 32 → (shift v .lsr k carry).getLsbD i = (decide (i + k ≤ 31) && v.getLsbD (i + k))) ∧
    (∀ i, i < 32 → (shift v .rrx 1 carry).getLsbD i = if i = 31 then carry else v.getLsbD (i + 1))

/-! ### The four instructions -/

/-- PKHBT, both encodings, on any registers 0 to 14: the instruction completes, in this state (R63, R66, R68). -/
def Obligations.PkhbtCompletes : Prop :=
  ∀ (s : State) (d n m : Reg) (imm5 : BitVec 5),
    (∀ cond, exec (.pkhbtA1 cond (fieldOf n) (fieldOf d) imm5 (fieldOf m)) s = .next
      (if condHolds cond s then s.setReg d (top (lsl32 (s.reg m) imm5.toNat) ++ bottom (s.reg n)) else s).advancePc) ∧
    exec (.pkhbtT1 (fieldOf n) (fieldOf d) imm5 (fieldOf m)) s = .next
      (if condHolds (condT32 s.itstate) s then s.setReg d (top (lsl32 (s.reg m) imm5.toNat) ++ bottom (s.reg n)) else s).advancePc.itAdvance

/-- PKHTB, both encodings, on any registers 0 to 14: the instruction completes, in this state (R63, R67, R69). -/
def Obligations.PkhtbCompletes : Prop :=
  ∀ (s : State) (d n m : Reg) (imm5 : BitVec 5),
    (∀ cond, exec (.pkhtbA1 cond (fieldOf n) (fieldOf d) imm5 (fieldOf m)) s = .next
      (if condHolds cond s then
        s.setReg d (top (s.reg n) ++ bottom (asr32 (s.reg m) (if imm5 = 0#5 then 32 else imm5.toNat))) else s).advancePc) ∧
    exec (.pkhtbT1 (fieldOf n) (fieldOf d) imm5 (fieldOf m)) s = .next
      (if condHolds (condT32 s.itstate) s then
        s.setReg d (top (s.reg n) ++ bottom (asr32 (s.reg m) (if imm5 = 0#5 then 32 else imm5.toNat))) else s).advancePc.itAdvance

/-- `PKHBT_A1` as R66 gives it, from the word at the pc: operands, operand check, effect, pc.
The refusal of register 15 is decision D3. -/
def Obligations.PkhbtA1Step : Prop :=
  ∀ (p : ItSupport) (s : State) (w : Word), StepReady p s → s.iset = .a32 → TextHolds s w →
    w &&& 0x0FF00070#32 = 0x06800010#32 → w.extractLsb' 28 4 ≠ 15#4 →
    (¬ RegsDefined (w.extractLsb' 12 4) (w.extractLsb' 16 4) (w.extractLsb' 0 4) →
      stepWith p s = .refused (.unpredictableR15 s.pc w)) ∧
    ∀ d n m : Reg, w.extractLsb' 12 4 = fieldOf d → w.extractLsb' 16 4 = fieldOf n → w.extractLsb' 0 4 = fieldOf m →
      stepWith p s = .next
        (if condHolds (w.extractLsb' 28 4) s then
          s.setReg d (top (lsl32 (s.reg m) (w.extractLsb' 7 5).toNat) ++ bottom (s.reg n)) else s).advancePc

/-- `PKHTB_A1` as R67 gives it, from the word at the pc.
The refusal of register 15 is decision D3. -/
def Obligations.PkhtbA1Step : Prop :=
  ∀ (p : ItSupport) (s : State) (w : Word), StepReady p s → s.iset = .a32 → TextHolds s w →
    w &&& 0x0FF00070#32 = 0x06800050#32 → w.extractLsb' 28 4 ≠ 15#4 →
    (¬ RegsDefined (w.extractLsb' 12 4) (w.extractLsb' 16 4) (w.extractLsb' 0 4) →
      stepWith p s = .refused (.unpredictableR15 s.pc w)) ∧
    ∀ d n m : Reg, w.extractLsb' 12 4 = fieldOf d → w.extractLsb' 16 4 = fieldOf n → w.extractLsb' 0 4 = fieldOf m →
      stepWith p s = .next
        (if condHolds (w.extractLsb' 28 4) s then
          s.setReg d (top (s.reg n) ++
            bottom (asr32 (s.reg m) (if w.extractLsb' 7 5 = 0#5 then 32 else (w.extractLsb' 7 5).toNat))) else s).advancePc

/-- `PKHBT_T1` as R68 gives it, from the two halfwords at the pc; the condition is `cond_T32` (R24, log entry 24).
The refusal of register 15 is decision D3. -/
def Obligations.PkhbtT1Step : Prop :=
  ∀ (p : ItSupport) (s : State) (w : Word), StepReady p s → s.iset = .t32 → TextHolds s w →
    w &&& 0xFFF08030#32 = 0xEAC00000#32 →
    (¬ RegsDefined (w.extractLsb' 8 4) (w.extractLsb' 16 4) (w.extractLsb' 0 4) →
      stepWith p s = .refused (.unpredictableR15 s.pc w)) ∧
    ∀ d n m : Reg, w.extractLsb' 8 4 = fieldOf d → w.extractLsb' 16 4 = fieldOf n → w.extractLsb' 0 4 = fieldOf m →
      stepWith p s = .next
        (if condHolds (if s.itstate.extractLsb' 0 4 ≠ 0#4 then s.itstate.extractLsb' 4 4 else 14#4) s then
          s.setReg d (top (lsl32 (s.reg m) (w.extractLsb' 12 3 ++ w.extractLsb' 6 2).toNat) ++ bottom (s.reg n))
        else s).advancePc.itAdvance

/-- `PKHTB_T1` as R69 gives it, from the two halfwords at the pc; the condition is `cond_T32` (R24, log entry 24).
The refusal of register 15 is decision D3. -/
def Obligations.PkhtbT1Step : Prop :=
  ∀ (p : ItSupport) (s : State) (w : Word), StepReady p s → s.iset = .t32 → TextHolds s w →
    w &&& 0xFFF08030#32 = 0xEAC00020#32 →
    (¬ RegsDefined (w.extractLsb' 8 4) (w.extractLsb' 16 4) (w.extractLsb' 0 4) →
      stepWith p s = .refused (.unpredictableR15 s.pc w)) ∧
    ∀ d n m : Reg, w.extractLsb' 8 4 = fieldOf d → w.extractLsb' 16 4 = fieldOf n → w.extractLsb' 0 4 = fieldOf m →
      stepWith p s = .next
        (if condHolds (if s.itstate.extractLsb' 0 4 ≠ 0#4 then s.itstate.extractLsb' 4 4 else 14#4) s then
          s.setReg d (top (s.reg n) ++
            bottom (asr32 (s.reg m)
              (if w.extractLsb' 12 3 ++ w.extractLsb' 6 2 = 0#5 then 32 else (w.extractLsb' 12 3 ++ w.extractLsb' 6 2).toNat)))
        else s).advancePc.itAdvance

/-- A register field of 15 is refused by all four instructions, whatever the condition, and the word recorded is the instruction's own (30_encoding.md R43, R50, R52; decisions D3, D8). -/
def Obligations.RegisterFifteenIsRefused : Prop :=
  ∀ (set : ISet) (cond : BitVec 4) (tbform : Bool) (rn rd : RegField) (imm5 : BitVec 5) (rm : RegField) (s : State),
    ¬ RegsDefined rd rn rm →
    exec (instrOf set cond tbform rn rd imm5 rm) s =
      .refused (.unpredictableR15 s.pc (encodeWord (instrOf set cond tbform rn rd imm5 rm)))

/-- Of the encodable instructions, exactly the defined ones complete, in every state (R43, R50, R76). -/
def Obligations.ExactlyDefinedInstructionsComplete : Prop :=
  ∀ (i : Instr) (s : State), i.wellFormed = true → (i.defined = true ↔ ∃ t, exec i s = .next t)

/-- The neighbouring words stop on every path, recording the pc and their own word: UNDEFINED with the fault (R46, R74, decision D4), the others with their refusals (R47, R40, decisions D5, D6). -/
def Obligations.NeighbouringWordsStop : Prop :=
  ∀ s : State,
    (∀ rn lo15, exec (.undefinedT1S rn lo15) s = .fault (.undefinedInstruction s.pc (0xEAD#12 ++ rn ++ 0#1 ++ lo15))) ∧
    (∀ rn mid10 rm, exec (.undefinedT1T rn mid10 rm) s =
      .fault (.undefinedInstruction s.pc (0xEAC#12 ++ rn ++ 0#1 ++ mid10 ++ 1#1 ++ rm))) ∧
    (∀ sbit rn lo15, exec (.reservedT1Sbz15 sbit rn lo15) s =
      .refused (.sbz15 s.pc (0b11101010110#11 ++ sbit ++ rn ++ 1#1 ++ lo15))) ∧
    (∀ mid14 rm, exec (.reservedA1Cond1111 mid14 rm) s =
      .refused (.wordNotInSource s.pc (0xF68#12 ++ mid14 ++ 0b01#2 ++ rm)))

/-! ### Consequences -/

/-- The closed forms of a PKHBT's result, for either encoding, when its condition passes (40_pack_halfword.md R73). -/
def Obligations.PkhbtClosedForms : Prop :=
  ∀ (set : ISet) (cond : BitVec 4) (d n m : Reg) (imm5 : BitVec 5) (s t : State),
    exec (instrOf set cond false (fieldOf n) (fieldOf d) imm5 (fieldOf m)) s = .next t →
    conditionPassed (instrOf set cond false (fieldOf n) (fieldOf d) imm5 (fieldOf m)) s = true →
    t.reg d = (BitVec.ofNat 32 ((s.reg m).toNat * 2 ^ imm5.toNat % 2 ^ 32) &&& 0xFFFF0000#32) ||| (s.reg n &&& 0x0000FFFF#32) ∧
    bottom (t.reg d) = bottom (s.reg n) ∧
    (imm5.toNat ≤ 15 → top (t.reg d) = (s.reg m).extractLsb' (16 - imm5.toNat) 16) ∧
    (16 ≤ imm5.toNat → (top (t.reg d)).toNat = ((s.reg m).extractLsb' 0 (32 - imm5.toNat)).toNat * 2 ^ (imm5.toNat - 16)) ∧
    (imm5 = 0#5 → n = m → t.reg d = s.reg n)

/-- The closed forms of a PKHTB's result, for either encoding, when its condition passes; `k` is the shift amount (R73). -/
def Obligations.PkhtbClosedForms : Prop :=
  ∀ (set : ISet) (cond : BitVec 4) (d n m : Reg) (imm5 : BitVec 5) (s t : State) (k : Nat),
    exec (instrOf set cond true (fieldOf n) (fieldOf d) imm5 (fieldOf m)) s = .next t →
    conditionPassed (instrOf set cond true (fieldOf n) (fieldOf d) imm5 (fieldOf m)) s = true →
    k = (if imm5 = 0#5 then 32 else imm5.toNat) →
    t.reg d = (s.reg n &&& 0xFFFF0000#32) ||| BitVec.ofNat 32 (Int.fdiv (s.reg m).toInt (2 ^ k) % 2 ^ 16).toNat ∧
    top (t.reg d) = top (s.reg n) ∧
    (k ≤ 16 → bottom (t.reg d) = (s.reg m).extractLsb' k 16) ∧
    (17 ≤ k → k ≤ 31 → bottom (t.reg d) = ((s.reg m).extractLsb' k (32 - k)).signExtend 16) ∧
    (k = 32 → bottom (t.reg d) = if (s.reg m).getLsbD 31 then 0xFFFF#16 else 0x0000#16)

/-- The source's two half-writes, the second reading after the first has written, come to the one write of the model, for every choice of registers; with `d = n` PKHBT changes only the top halfword and PKHTB only the bottom one (R63, R70). -/
def Obligations.HalfWritesAreOneWrite : Prop :=
  ∀ (tbform : Bool) (d n m : Reg) (imm5 : BitVec 5) (s : State),
    packWriteHalves tbform d n imm5 m s = packWrite tbform d n imm5 m s ∧
    (d = n → tbform = false → bottom ((packWriteHalves tbform d n imm5 m s).reg d) = bottom (s.reg d)) ∧
    (d = n → tbform = true → top ((packWriteHalves tbform d n imm5 m s).reg d) = top (s.reg d))

/-- A defined instruction whose condition fails only moves the pc on and, in T32, advances `ITSTATE`; it reads and writes no general-purpose register (R71, R72; decisions D8, D10). -/
def Obligations.ConditionFailedOnlyMovesOn : Prop :=
  ∀ (i : Instr) (s : State), i.defined = true → conditionPassed i s = false →
    exec i s = .next (match i.iset with | .a32 => s.advancePc | .t32 => s.advancePc.itAdvance) ∧
    regsRead i s = [] ∧ regsWritten i s = []

/-- The result depends on all of `x[m]` and on the half of `x[n]` that the mnemonic uses, and on nothing else: two states that agree there, and in whether the condition passes, are given the same `x[d]`; a passed condition writes `x[d]` alone (10_state.md R16). -/
def Obligations.ResultDependsOnSourcesAlone : Prop :=
  ∀ (set : ISet) (cond : BitVec 4) (tbform : Bool) (d n m : Reg) (imm5 : BitVec 5) (i : Instr) (s s' t t' : State),
    i = instrOf set cond tbform (fieldOf n) (fieldOf d) imm5 (fieldOf m) →
    exec i s = .next t → exec i s' = .next t' →
    (conditionPassed i s = true → regsRead i s = [m, n] ∧ regsWritten i s = [d] ∧ ∀ r : Reg, r ≠ d → t.reg r = s.reg r) ∧
    (conditionPassed i s = false → regsRead i s = [] ∧ regsWritten i s = [] ∧ t.regs = s.regs) ∧
    (conditionPassed i s = true → conditionPassed i s' = true → s.reg m = s'.reg m →
      (tbform = false → bottom (s.reg n) = bottom (s'.reg n)) → (tbform = true → top (s.reg n) = top (s'.reg n)) →
      t.reg d = t'.reg d)

/-- The carry flag is passed to the shift and ignored: changing it changes no register's result unless it changes the condition (10_state.md R20; decision D21). -/
def Obligations.CarryDoesNotReachTheResult : Prop :=
  ∀ (i : Instr) (s t t' : State) (b : Bool), conditionPassed i { s with c := b } = conditionPassed i s →
    exec i s = .next t → exec i { s with c := b } = .next t' → t'.regs = t.regs

/-- The frame of PKHBT and PKHTB in both encodings: only `x[d]`, the pc and, in T32, `ITSTATE` change; every byte of the program text reads as before (10_state.md R25, decision D25; 20_memory.md R28). -/
def Obligations.PackHalfwordFrame : Prop :=
  ∀ (set : ISet) (cond : BitVec 4) (tbform : Bool) (d n m : Reg) (imm5 : BitVec 5) (s t : State),
    exec (instrOf set cond tbform (fieldOf n) (fieldOf d) imm5 (fieldOf m)) s = .next t →
    (∀ r : Reg, r ≠ d → t.reg r = s.reg r) ∧
    t.n = s.n ∧ t.z = s.z ∧ t.c = s.c ∧ t.v = s.v ∧ t.dit = s.dit ∧ t.iset = s.iset ∧ t.mark = s.mark ∧
    (∀ a, t.mem.read a = s.mem.read a) ∧
    (set = .a32 ∨ s.itstate = 0#8 → t.itstate = s.itstate)

/-- No step writes a flag, whatever the instruction and the operands (10_state.md R21). -/
def Obligations.NoStepWritesAFlag : Prop :=
  ∀ (p : ItSupport) (s t : State), stepWith p s = .next t → t.n = s.n ∧ t.z = s.z ∧ t.c = s.c ∧ t.v = s.v

/-! ### The whole machine -/

/-- The invariant is kept by every step, from every state that meets it, under either setting of `P_IT`: the text in canonical form, the pc aligned, `ITSTATE` well-formed (20_memory.md R32, 10_state.md R24). -/
def Obligations.InvariantKeptByEveryStep : Prop :=
  ∀ (p : ItSupport) (s t : State), s.Inv → stepWith p s = .next t → t.Inv

/-- However far the machine goes, from any state at all, with its marks recorded: the program text, the instruction-set state, the flags and `DIT` are those it started with (20_memory.md R36, 10_state.md R21, R22, R23). -/
def Obligations.TextAndModeConstantOverEveryRun : Prop :=
  ∀ (p : ItSupport) (k : Nat) (s : State),
    ((advance p)^[k] s).mem = s.mem ∧ ((advance p)^[k] s).iset = s.iset ∧ ((advance p)^[k] s).dit = s.dit ∧
    SameFlags s ((advance p)^[k] s)

/-- `DIT` is read by no step: changing it, or taking it away or bringing it in (`P_DIT`, 00_scope.md R4), changes nothing else of any outcome (10_state.md R22, 70_reset_and_hazards.md R86). -/
def Obligations.DitReachesNoOutcome : Prop :=
  ∀ (p : ItSupport) (s : State) (b : Option Bool),
    stepWith p { s with dit := b } =
      match stepWith p s with
      | .next t => .next { t with dit := b }
      | .fault f => .fault f
      | .refused r => .refused r

/-- The promise of data-independent timing is made under exactly its three premises (R86); where `DIT` does not exist (`P_DIT`) it is never made. -/
def Obligations.TimingPromisePremises : Prop :=
  ∀ (set : ISet) (cond : BitVec 4) (tbform : Bool) (rn rd : RegField) (imm5 : BitVec 5) (rm : RegField) (s : State), cond ≠ 15#4 →
    (timingPromise (instrOf set cond tbform rn rd imm5 rm) s = true ↔
      s.dit = some true ∧
      condHolds (match set with | .a32 => cond | .t32 => condT32 s.itstate) s = true ∧
      rd ≠ 15#4 ∧ rn ≠ 15#4 ∧ rm ≠ 15#4)

/-- A mark, once recorded, stays: the marked state has no successor, no run of it is over, and it stays as it is (60_exceptions.md R75, R80; decisions D3, D4).
A step that faults on an UNDEFINED word or refuses sets the mark and changes nothing else (R74, R79). -/
def Obligations.MarksStay : Prop :=
  (∀ (p : ItSupport) (s : State), s.mark ≠ none →
    (∀ t, stepWith p s ≠ .next t) ∧ advance p s = s ∧
    ∀ (endAddr : Word) (k : Nat) (t : State), run p endAddr k s ≠ .finished t) ∧
  (∀ (p : ItSupport) (s : State) (pc w : Word), stepWith p s = .fault (.undefinedInstruction pc w) →
    advance p s = { s with mark := some (.faulted (.undefinedInstruction pc w)) }) ∧
  (∀ (p : ItSupport) (s : State) (r : Refusal), stepWith p s = .refused r → advance p s = { s with mark := some (.refused r) })

/-- The end of a run (70_reset_and_hazards.md R84, decision D23): an unmarked state at the end address is final, its instruction is not fetched, and a run is over nowhere else. -/
def Obligations.RunEndsAtTheEndAddress : Prop :=
  ∀ (p : ItSupport) (endAddr : Word) (k : Nat) (s : State),
    (s.pc = endAddr → s.mark = none → run p endAddr k s = .finished s) ∧
    (∀ t, run p endAddr k s = .finished t → t.pc = endAddr ∧ t.mark = none) ∧
    (∀ o, (run p endAddr k s).observed = some o → ∃ t, run p endAddr k s = .finished t ∧ o = t.observation)

/-- A finished run is a straight line: so many steps, 4 bytes each, nothing changed but registers, pc and `ITSTATE` (10_state.md R18, 40_pack_halfword.md R72, 70_reset_and_hazards.md R84). -/
def Obligations.FinishedRunIsAStraightLine : Prop :=
  ∀ (p : ItSupport) (endAddr : Word) (k : Nat) (s t : State), run p endAddr k s = .finished t →
    ∃ j ≤ k, t = (advance p)^[j] s ∧ endAddr.toNat = s.pc.toNat + 4 * j ∧ KeepsFixed s t

/-! ### Assembler -/

/-- Assembling what a defined instruction is disassembled to gives it back, in the same instruction set and under the same IT condition, whether or not `#0` is accepted (30_encoding.md R54, R55, R61; `<c>` from general knowledge, log entry 31). -/
def Obligations.AssembleOfDisassemble : Prop :=
  ∀ (i : Instr) (itCond : Option Cond) (zero : Bool), i.defined = true →
    ∃ l, disassemble itCond i = some l ∧ assemble ⟨i.iset, itCond, zero⟩ l = .ok i

/-- The shift field of PKHBT (30_encoding.md R58): omitted is 0, `LSL #k` is `k` for 1 to 31, and above that there is no encoding. -/
def Obligations.PkhbtShiftField : Prop :=
  ∀ (zero : Bool) (l : Line), l.mnemonic = .pkhbt →
    (l.shift = none → lineFields zero l = .fields false l.rn 0#5 l.rm) ∧
    (∀ k, l.shift = some (.lsl k) → 1 ≤ k → k ≤ 31 → ∃ imm5 : BitVec 5, imm5.toNat = k ∧ lineFields zero l = .fields false l.rn imm5 l.rm) ∧
    (∀ k, l.shift = some (.lsl k) → 32 ≤ k → lineFields zero l = .error .shiftRange)

/-- The shift field of PKHTB (R59): `ASR #k` is `k` for 1 to 31, `ASR #32` is 0, and above that there is no encoding; an omitted shift is the pseudo-instruction (R60). -/
def Obligations.PkhtbShiftField : Prop :=
  ∀ (zero : Bool) (l : Line), l.mnemonic = .pkhtb →
    (l.shift = none → lineFields zero l = .fields false l.rm 0#5 l.rn) ∧
    (∀ k, l.shift = some (.asr k) → 1 ≤ k → k ≤ 31 → ∃ imm5 : BitVec 5, imm5.toNat = k ∧ lineFields zero l = .fields true l.rn imm5 l.rm) ∧
    (l.shift = some (.asr 32) → lineFields zero l = .fields true l.rn 0#5 l.rm) ∧
    (∀ k, l.shift = some (.asr k) → 33 ≤ k → lineFields zero l = .error .shiftRange)

/-- The pseudo-instruction (R60): PKHTB without a shift assembles as PKHBT without a shift and with its sources exchanged, and what it is assembled to computes the top halfword of the written `<Rn>` over the bottom halfword of the written `<Rm>`.
That an omitted `<Rd>` is `<Rn>` is general knowledge (R57, log entry 31). -/
def Obligations.PseudoInstruction : Prop :=
  ∀ (ctx : AsmContext) (l : Line), l.mnemonic = .pkhtb → l.shift = none →
    assemble ctx l = assemble ctx { l with mnemonic := .pkhbt, rd := some l.destination, rn := l.rm, rm := l.rn } ∧
    (∀ i, assemble ctx l = .ok i → i = instrOf ctx.iset l.condition.code false l.rm l.destination 0#5 l.rn) ∧
    ∀ (d n m : Reg) (i : Instr) (s t : State), l.destination = fieldOf d → l.rn = fieldOf n → l.rm = fieldOf m →
      assemble ctx l = .ok i → exec i s = .next t → conditionPassed i s = true →
      t.reg d = top (s.reg n) ++ bottom (s.reg m)

/-- The disassembler's four forms (R61; decision D27): a PKHBT of field 0 has no shift, one of field `k` is `LSL #k`, a PKHTB of field 0 is `ASR #32`, one of field `k` is `ASR #k`; it never gives `#0`, never a PKHTB without a shift, and gives no line but for the four defined instructions. -/
def Obligations.DisassemblyForms : Prop :=
  ∀ (i : Instr) (itCond : Option Cond) (l : Line), disassemble itCond i = some l →
    l.shift ≠ some (.lsl 0) ∧ l.shift ≠ some (.asr 0) ∧ (l.mnemonic = .pkhtb → l.shift ≠ none) ∧
    ∃ (set : ISet) (cond : BitVec 4) (tbform : Bool) (rn rd : RegField) (imm5 : BitVec 5) (rm : RegField),
      i = instrOf set cond tbform rn rd imm5 rm ∧ RegsDefined rd rn rm ∧ l.rd = some rd ∧ l.rn = rn ∧ l.rm = rm ∧
      (tbform = false → l.mnemonic = .pkhbt ∧ l.shift = if imm5 = 0#5 then none else some (.lsl imm5.toNat)) ∧
      (tbform = true → l.mnemonic = .pkhtb ∧ l.shift = some (.asr (if imm5 = 0#5 then 32 else imm5.toNat)))

/-- `<c>` and `<q>` (R56, from general knowledge, log entry 31): in A32 a condition is assembled into the `cond` field, omitted as AL; in T32 it must be the one the IT block gives, AL outside one; `.W` changes nothing and `.N` is an error. -/
def Obligations.ConditionAndQualifier : Prop :=
  (∀ (ctx : AsmContext) (l : Line), l.qualifier = some .narrow → assemble ctx l = .error .narrow) ∧
  (∀ (ctx : AsmContext) (l : Line), assemble ctx { l with qualifier := some .wide } = assemble ctx { l with qualifier := none }) ∧
  (∀ (itCond : Option Cond) (zero : Bool) (l : Line) (i : Instr), assemble ⟨.a32, itCond, zero⟩ l = .ok i →
    ∀ s, currentCond i s = some (l.cond.getD .al).code) ∧
  (∀ (itCond : Option Cond) (zero : Bool) (l : Line) (i : Instr), assemble ⟨.t32, itCond, zero⟩ l = .ok i →
    l.cond.getD .al = itCond.getD .al)

/-! ### The OPEN parameter `P_DIT` -/

/-- `P_DIT` is a parameter of the whole run (00_scope.md R4, 10_state.md R22, R25): whether `CPSR.DIT` exists is as the launch's setting says, however many steps are made and whatever stops them, and so is its value where it exists. -/
def Obligations.DitExistsAsLaunched : Prop :=
  ∀ (p : ItSupport) (d : DitSupport) (l : Launch) (k : Nat), l.ok p d = true →
    ((advance p)^[k] l.state).ditSupport = d ∧ ((advance p)^[k] l.state).dit = l.dit
end

