-- ==== Sys2Proof/Laws/Decode.lean ====
section
/-! SUPPORT. Bytes and words, and what the encoder puts in each field. -/

namespace Sys2Proof

@[simp] theorem wordBytes_length (set : ISet) (w : Word) : (wordBytes set w).length = 4 := by cases set <;> rfl

@[simp] theorem encode_length (i : Instr) : (encode i).length = 4 := wordBytes_length _ _

/-- A halfword from its two bytes. -/
@[simp] theorem half_halfBytes (h : Half) : half (h.extractLsb' 0 8) (h.extractLsb' 8 8) = h := by
  apply BitVec.eq_of_getLsbD_eq
  intro i hi
  simp only [half, BitVec.getLsbD_append, BitVec.getLsbD_extractLsb']
  interval_cases i <;> simp

/-- The bytes of a halfword from the halfword. -/
theorem halfBytes_half (b0 b1 : Byte) : halfBytes (half b0 b1) = [b0, b1] := by
  simp only [halfBytes, half, List.cons.injEq, and_true]
  constructor
  all_goals
    apply BitVec.eq_of_getLsbD_eq
    intro i hi
    simp only [BitVec.getLsbD_append, BitVec.getLsbD_extractLsb']
    interval_cases i <;> simp

/-- A word from its two halves. -/
@[simp] theorem wordT32_halves (w : Word) : wordT32 (w.extractLsb' 16 16) (w.extractLsb' 0 16) = w := by
  apply BitVec.eq_of_getLsbD_eq
  intro i hi
  simp only [wordT32, BitVec.getLsbD_append, BitVec.getLsbD_extractLsb']
  interval_cases i <;> simp

@[simp] theorem wordT32_high (h1 h2 : Half) : (wordT32 h1 h2).extractLsb' 16 16 = h1 := by
  apply BitVec.eq_of_getLsbD_eq
  intro i hi
  simp only [wordT32, BitVec.getLsbD_append, BitVec.getLsbD_extractLsb']
  interval_cases i <;> simp

@[simp] theorem wordT32_low (h1 h2 : Half) : (wordT32 h1 h2).extractLsb' 0 16 = h2 := by
  apply BitVec.eq_of_getLsbD_eq
  intro i hi
  simp only [wordT32, BitVec.getLsbD_append, BitVec.getLsbD_extractLsb']
  interval_cases i <;> simp

/-- A little-endian word is its upper halfword over its lower one. -/
theorem word32_eq (b0 b1 b2 b3 : Byte) : word32 b0 b1 b2 b3 = wordT32 (half b2 b3) (half b0 b1) := by
  apply BitVec.eq_of_getLsbD_eq
  intro i hi
  simp only [word32, wordT32, half, BitVec.getLsbD_append]
  interval_cases i <;> simp

/-- The four bytes of an A32 word decode to that word. -/
theorem decode_wordBytes_a32 (w : Word) (rest : List Byte) :
    decode .a32 (wordBytes .a32 w ++ rest) = decodedOf .a32 w rest := by
  simp only [wordBytes, halfBytes, List.cons_append, List.nil_append, decode, word32_eq, half_halfBytes, wordT32_halves]

/-- The four bytes of a wide T32 instruction decode to its two halfwords. -/
theorem decode_wordBytes_t32 {w : Word} (rest : List Byte) (h : isWide (w.extractLsb' 16 16) = true) :
    decode .t32 (wordBytes .t32 w ++ rest) = decodedOf .t32 w rest := by
  simp only [wordBytes, halfBytes, List.cons_append, List.nil_append, decode, decodeSecondHalf, half_halfBytes, wordT32_halves, h,
    if_true]

/-- The bytes of an A32 word, from the bytes. -/
theorem wordBytes_a32_word32 (b0 b1 b2 b3 : Byte) : wordBytes .a32 (word32 b0 b1 b2 b3) = [b0, b1, b2, b3] := by
  simp [wordBytes, word32_eq, halfBytes_half]

/-- The bytes of a T32 value, from the bytes. -/
theorem wordBytes_t32_halves (b0 b1 b2 b3 : Byte) :
    wordBytes .t32 (wordT32 (half b0 b1) (half b2 b3)) = [b0, b1, b2, b3] := by
  simp [wordBytes, halfBytes_half]

/-- The bytes of a word name the word. -/
theorem wordBytes_injective {set : ISet} {w w' : Word} (h : wordBytes set w = wordBytes set w') : w = w' := by
  cases set with
  | a32 =>
    have := decode_wordBytes_a32 w []
    simp only [wordBytes, halfBytes, List.cons_append, List.nil_append, List.cons.injEq, and_true] at h
    obtain ⟨h0, h1, h2, h3⟩ := h
    rw [← wordT32_halves w, ← wordT32_halves w', ← half_halfBytes (w.extractLsb' 16 16), ← half_halfBytes (w.extractLsb' 0 16),
      h0, h1, h2, h3, half_halfBytes, half_halfBytes]
  | t32 =>
    simp only [wordBytes, halfBytes, List.cons_append, List.nil_append, List.cons.injEq, and_true] at h
    obtain ⟨h0, h1, h2, h3⟩ := h
    rw [← wordT32_halves w, ← wordT32_halves w', ← half_halfBytes (w.extractLsb' 16 16), ← half_halfBytes (w.extractLsb' 0 16),
      h0, h1, h2, h3, half_halfBytes, half_halfBytes]

/-! ### What the encoder puts in each field -/

section A1

variable (cond : BitVec 4) (rn rd : RegField) (imm5 : BitVec 5) (tb : BitVec 1) (rm : RegField)

/-- The A1 fixed bits (30_encoding.md R38). -/
theorem encodeA1_fixed : encodeA1 cond rn rd imm5 tb rm &&& 0x0FF00030#32 = 0x06800010#32 := by
  apply BitVec.eq_of_getLsbD_eq
  intro i hi
  simp only [BitVec.getLsbD_and, encodeA1, BitVec.getLsbD_append]
  interval_cases i <;> simp

/-- The A1 fields (R38, R39). -/
theorem encodeA1_fields :
    (encodeA1 cond rn rd imm5 tb rm).extractLsb' 28 4 = cond ∧ (encodeA1 cond rn rd imm5 tb rm).extractLsb' 16 4 = rn ∧
    (encodeA1 cond rn rd imm5 tb rm).extractLsb' 12 4 = rd ∧ (encodeA1 cond rn rd imm5 tb rm).extractLsb' 7 5 = imm5 ∧
    (encodeA1 cond rn rd imm5 tb rm).getLsbD 6 = tb.getLsbD 0 ∧ (encodeA1 cond rn rd imm5 tb rm).extractLsb' 0 4 = rm := by
  refine ⟨?_, ?_, ?_, ?_, by simp only [encodeA1, BitVec.getLsbD_append]; simp, ?_⟩
  all_goals
    apply BitVec.eq_of_getLsbD_eq
    intro i hi
    simp only [encodeA1, BitVec.getLsbD_append, BitVec.getLsbD_extractLsb']
    interval_cases i <;> simp

/-- A word with the A1 fixed bits is the encoding of its fields. -/
theorem encodeA1_of_fixed {w : Word} (h : w &&& 0x0FF00030#32 = 0x06800010#32) :
    encodeA1 (w.extractLsb' 28 4) (w.extractLsb' 16 4) (w.extractLsb' 12 4) (w.extractLsb' 7 5) (w.extractLsb' 6 1)
      (w.extractLsb' 0 4) = w := by
  apply BitVec.eq_of_getLsbD_eq
  intro i hi
  have hb := congrArg (BitVec.getLsbD · i) h
  simp only [BitVec.getLsbD_and, encodeA1, BitVec.getLsbD_append, BitVec.getLsbD_extractLsb'] at hb ⊢
  interval_cases i <;> simp_all

end A1

section T1

variable (rn rd : RegField) (imm5 : BitVec 5) (tb : BitVec 1) (rm : RegField)

/-- The T1 fixed bits, with `S`, bit 15 and `T` clear (R44, R45). -/
theorem encodeT1_fixed : encodeT1 rn rd imm5 tb rm &&& 0xFFF08010#32 = 0xEAC00000#32 := by
  apply BitVec.eq_of_getLsbD_eq
  intro i hi
  simp only [BitVec.getLsbD_and, encodeT1, BitVec.getLsbD_append]
  interval_cases i <;> simp

/-- The T1 fields (R44, R45). -/
theorem encodeT1_fields :
    (encodeT1 rn rd imm5 tb rm).extractLsb' 16 4 = rn ∧
    (encodeT1 rn rd imm5 tb rm).extractLsb' 12 3 ++ (encodeT1 rn rd imm5 tb rm).extractLsb' 6 2 = imm5 ∧
    (encodeT1 rn rd imm5 tb rm).extractLsb' 8 4 = rd ∧ (encodeT1 rn rd imm5 tb rm).getLsbD 5 = tb.getLsbD 0 ∧
    (encodeT1 rn rd imm5 tb rm).extractLsb' 0 4 = rm := by
  refine ⟨?_, ?_, ?_, by simp only [encodeT1, BitVec.getLsbD_append]; simp, ?_⟩
  all_goals
    apply BitVec.eq_of_getLsbD_eq
    intro i hi
    simp only [encodeT1, BitVec.getLsbD_append, BitVec.getLsbD_extractLsb']
    interval_cases i <;> simp

/-- A word with the T1 fixed bits is the encoding of its fields. -/
theorem encodeT1_of_fixed {w : Word} (h : w &&& 0xFFF08010#32 = 0xEAC00000#32) :
    encodeT1 (w.extractLsb' 16 4) (w.extractLsb' 8 4) (w.extractLsb' 12 3 ++ w.extractLsb' 6 2) (w.extractLsb' 5 1)
      (w.extractLsb' 0 4) = w := by
  apply BitVec.eq_of_getLsbD_eq
  intro i hi
  have hb := congrArg (BitVec.getLsbD · i) h
  simp only [BitVec.getLsbD_and, encodeT1, BitVec.getLsbD_append, BitVec.getLsbD_extractLsb'] at hb ⊢
  interval_cases i <;> simp_all

end T1

/-- The first halfword of every word with the T1 bits 31:21 is that of a wide instruction (20_memory.md R30). -/
theorem isWide_of_t1 {w : Word} (h : w &&& 0xFFE00000#32 = 0xEAC00000#32) : isWide (w.extractLsb' 16 16) = true := by
  have ht : (w.extractLsb' 16 16).extractLsb' 11 5 = 0b11101#5 := by
    apply BitVec.eq_of_getLsbD_eq
    intro i hi
    have hb := congrArg (BitVec.getLsbD · (27 + i)) h
    simp only [BitVec.getLsbD_and, BitVec.getLsbD_extractLsb'] at hb ⊢
    interval_cases i <;> simp_all
  simp [isWide, ht]

end Sys2Proof
end

