-- ==== Sys2Proof/Laws/Memory.lean ====
section
/-! SUPPORT. The program text: reading what was written, keeping every other byte, keeping the canonical form. -/

namespace Sys2Proof.Machine

open Sys2Proof

/-- A read of the address just written gives the byte written. -/
theorem Memory.read_write_same (m : Memory) (a : Nat) (b : Byte) : (Memory.write m a b).read a = some b := by
  induction m with
  | nil => simp [Memory.write, Memory.read]
  | cons cell rest ih =>
    unfold Memory.write
    split
    · simp [Memory.read]
    · split
      · simp [Memory.read]
      · rename_i _ hne
        simp [Memory.read, Ne.symm hne, ih]

/-- A write leaves every other address alone. -/
theorem Memory.read_write_other (m : Memory) {a a' : Nat} (b : Byte) (h : a' ≠ a) :
    (Memory.write m a b).read a' = m.read a' := by
  induction m with
  | nil => simp [Memory.write, Memory.read, Ne.symm h]
  | cons cell rest ih =>
    unfold Memory.write
    split
    · simp [Memory.read, Ne.symm h]
    · split
      · rename_i _ he
        simp [Memory.read, Ne.symm h, ← he]
      · simp [Memory.read, ih]

/-- What a write lists: the cell written, or a cell that was there. -/
theorem Memory.mem_write {m : Memory} {a : Nat} {b : Byte} {c : Host.Cell} (h : c ∈ Memory.write m a b) :
    c = (a, b) ∨ c ∈ m := by
  induction m with
  | nil => exact .inl (by simpa [Memory.write] using h)
  | cons cell rest ih =>
    unfold Memory.write at h
    split at h
    · simpa using h
    · split at h
      · rcases List.mem_cons.mp h with h | h
        · exact .inl h
        · exact .inr (List.mem_cons_of_mem _ h)
      · rcases List.mem_cons.mp h with h | h
        · exact .inr (h ▸ List.mem_cons_self)
        · exact (ih h).imp id (List.mem_cons_of_mem _)

/-- A write inside the address space keeps the canonical form. -/
theorem Memory.write_wf {m : Memory} {a : Nat} (b : Byte) (hm : Memory.wf m) (ha : a < Config.addrLimit) :
    Memory.wf (Memory.write m a b) := by
  obtain ⟨hp, hl⟩ := hm
  refine ⟨?_, fun c hc => (mem_write hc).elim (fun e => e ▸ ha) (hl c)⟩
  clear hl
  induction m with
  | nil => simp [Memory.write]
  | cons cell rest ih =>
    have hp' := List.pairwise_cons.mp hp
    unfold Memory.write
    split
    · rename_i hlt
      refine List.pairwise_cons.mpr ⟨fun c hc => ?_, hp⟩
      rcases List.mem_cons.mp hc with rfl | hc
      · exact hlt
      · exact hlt.trans (hp'.1 c hc)
    · split
      · rename_i _ he
        exact List.pairwise_cons.mpr ⟨fun c hc => he ▸ hp'.1 c hc, hp'.2⟩
      · rename_i hlt hne
        refine List.pairwise_cons.mpr ⟨fun c hc => ?_, ih hp'.2⟩
        rcases mem_write hc with rfl | hc
        · show cell.1 < a
          omega
        · exact hp'.1 c hc

/-- Loading bytes inside the address space keeps the canonical form. -/
theorem Memory.load_wf {m : Memory} {a : Nat} (bs : List Byte) (hm : Memory.wf m) (ha : a + bs.length ≤ Config.addrLimit) :
    Memory.wf (m.load a bs) := by
  induction bs generalizing m a with
  | nil => exact hm
  | cons b bs ih =>
    simp only [List.length_cons] at ha
    exact ih (write_wf b hm (by omega)) (by omega)

/-- The text after reset is in canonical form. -/
theorem Memory.reset_wf : Memory.wf State.reset.mem := by decide

/-- Loading leaves every address below the first byte loaded alone. -/
theorem Memory.read_load_below (m : Memory) {a a' : Nat} (bs : List Byte) (h : a' < a) : (m.load a bs).read a' = m.read a' := by
  induction bs generalizing m a with
  | nil => rfl
  | cons b bs ih =>
    unfold Memory.load
    rw [ih _ (by omega), read_write_other _ _ (by omega)]

/-- A fetch of bytes just loaded gives them. -/
theorem Memory.fetchBytes_load (m : Memory) (a : Nat) (bs : List Byte) : (m.load a bs).fetchBytes a bs.length = bs := by
  induction bs generalizing m a with
  | nil => rfl
  | cons b bs ih =>
    unfold Memory.load
    simp only [List.length_cons, Memory.fetchBytes]
    rw [read_load_below _ _ (Nat.lt_succ_self a), read_write_same]
    simp [ih]

/-- A fetch gives at most the bytes asked for. -/
theorem Memory.fetchBytes_length (m : Memory) (a n : Nat) : (m.fetchBytes a n).length ≤ n := by
  induction n generalizing a with
  | zero => simp [Memory.fetchBytes]
  | succ n ih =>
    unfold Memory.fetchBytes
    split
    · simpa using ih (a + 1)
    · simp

/-- A fetch depends on the bytes read alone. -/
theorem Memory.fetchBytes_congr {m m' : Memory} (h : ∀ a, m.read a = m'.read a) (a n : Nat) :
    m.fetchBytes a n = m'.fetchBytes a n := by
  induction n generalizing a with
  | zero => rfl
  | succ n ih => simp only [Memory.fetchBytes, h, ih]

/-- A fetch that falls short ends at an address outside the text. -/
theorem Memory.read_fetchBytes_end {m : Memory} {a n : Nat} (h : (m.fetchBytes a n).length < n) :
    m.read (a + (m.fetchBytes a n).length) = none := by
  induction n generalizing a with
  | zero => simp at h
  | succ n ih =>
    unfold Memory.fetchBytes at h ⊢
    split at h
    · simp only [List.length_cons] at h ⊢
      have := ih (a := a + 1) (by omega)
      rwa [show a + 1 + (m.fetchBytes (a + 1) n).length = a + ((m.fetchBytes (a + 1) n).length + 1) by omega] at this
    · rename_i heq
      simp [heq]

end Sys2Proof.Machine
end

