-- ==== Sys2Proof/Laws/Operands.lean ====
section
/-! SUPPORT. Registers, shifts, conditions and the If-Then state: what each operation gives. -/

namespace Sys2Proof.Machine

open Sys2Proof

/-! ### Register numbers -/

@[simp] theorem regOf_fieldOf (r : Reg) : regOf (fieldOf r) = some r := by
  revert r
  decide

theorem regOf_eq_some {f : RegField} {r : Reg} : regOf f = some r ↔ f = fieldOf r := by
  revert f r
  decide

/-- Only field 15 names no register (10_state.md R14). -/
theorem regOf_eq_none {f : RegField} : regOf f = none ↔ f = 15#4 := by
  revert f
  decide

theorem fieldOf_ne_fifteen (r : Reg) : fieldOf r ≠ 15#4 := by
  revert r
  decide

theorem exists_fieldOf {f : RegField} (h : f ≠ 15#4) : ∃ r : Reg, f = fieldOf r := by
  revert f
  decide

/-! ### Shifts -/

/-- `LSL32` is the shift left of bit vectors. -/
theorem lsl32_eq (v : Word) (k : Nat) : lsl32 v k = v <<< k := by
  apply BitVec.eq_of_toNat_eq
  simp [lsl32, Nat.shiftLeft_eq]

/-- `ASR32` is the arithmetic shift right of bit vectors. -/
theorem asr32_eq (v : Word) (k : Nat) : asr32 v k = v.sshiftRight k := by
  apply BitVec.eq_of_getLsbD_eq
  intro i hi
  simp only [asr32, BitVec.getLsbD_extractLsb', BitVec.getLsbD_signExtend, BitVec.getLsbD_sshiftRight, hi, decide_true, Bool.true_and,
    show ¬ 32 ≤ i by omega, decide_false, Bool.not_false]
  simp [show k + i < 32 + k by omega]

theorem asr32_getLsbD (v : Word) (k : Nat) {i : Nat} (hi : i < 32) :
    (asr32 v k).getLsbD i = if i + k < 32 then v.getLsbD (i + k) else v.msb := by
  rw [asr32_eq, BitVec.getLsbD_sshiftRight]
  simp [show ¬ 32 ≤ i by omega, Nat.add_comm k i]

/-- No shift but RRX looks at the carry (40_pack_halfword.md R65). -/
theorem shift_carry (v : Word) {kind : SRType} (h : kind ≠ .rrx) (k : Nat) (a b : Bool) : shift v kind k a = shift v kind k b := by
  unfold shift
  split
  · rfl
  · cases kind with
    | rrx => exact absurd rfl h
    | lsl | lsr | asr | ror => rfl

theorem shift_lsl (v : Word) (k : Nat) (b : Bool) : shift v .lsl k b = lsl32 v k := by
  unfold shift
  split
  · rename_i h
    simp [h, lsl32]
  · rfl

theorem shift_asr (v : Word) {k : Nat} (h : k ≠ 0) (b : Bool) : shift v .asr k b = asr32 v k := by
  simp [shift, h]

theorem amountOr32_pos (imm5 : BitVec 5) : amountOr32 imm5 ≠ 0 := by
  revert imm5
  decide

/-! ### Conditions and `ITSTATE` -/

/-- The condition check reads the four flags and nothing else (R64). -/
theorem condHolds_congr {s t : State} (cond : BitVec 4) (hn : t.n = s.n) (hz : t.z = s.z) (hc : t.c = s.c) (hv : t.v = s.v) :
    condHolds cond t = condHolds cond s := by
  simp only [condHolds, hn, hz, hc, hv]

@[simp] theorem condHolds_al (s : State) : condHolds 14#4 s = true := rfl

@[simp] theorem itNext_zero : itNext 0#8 = 0#8 := by decide

/-- An `ITSTATE` that is not malformed stays so (10_state.md R24). -/
theorem itMalformed_itNext {it : BitVec 8} (h : itMalformed it = false) : itMalformed (itNext it) = false := by
  revert it
  decide

end Sys2Proof.Machine
end

