-- ==== Sys2Proof/Laws/State.lean ====
section
/-! SUPPORT. What each named update of the state does to each field, so that no proof unfolds a record update. -/

namespace Sys2Proof.Machine

open Sys2Proof

/-! ### Registers -/

@[simp] theorem State.setReg_regs (s : State) (r : Reg) (w : Word) : (s.setReg r w).regs = s.regs.set r w := rfl
@[simp] theorem State.setReg_pc (s : State) (r : Reg) (w : Word) : (s.setReg r w).pc = s.pc := rfl
@[simp] theorem State.setReg_n (s : State) (r : Reg) (w : Word) : (s.setReg r w).n = s.n := rfl
@[simp] theorem State.setReg_z (s : State) (r : Reg) (w : Word) : (s.setReg r w).z = s.z := rfl
@[simp] theorem State.setReg_c (s : State) (r : Reg) (w : Word) : (s.setReg r w).c = s.c := rfl
@[simp] theorem State.setReg_v (s : State) (r : Reg) (w : Word) : (s.setReg r w).v = s.v := rfl
/-- The bit a setting of `P_DIT` gives is a bit of that setting. -/
@[simp] theorem State.ditSupport_bit (s : State) (d : DitSupport) (b : Bool) :
    ({ s with dit := d.bit b } : State).ditSupport = d := by cases d <;> rfl
@[simp] theorem State.ditSupport_resetOf (d : DitSupport) : (State.resetOf d).ditSupport = d := by cases d <;> rfl
theorem State.ditSupport_congr {s t : State} (h : t.dit = s.dit) : t.ditSupport = s.ditSupport := by
  simp only [State.ditSupport, h]
@[simp] theorem State.setReg_dit (s : State) (r : Reg) (w : Word) : (s.setReg r w).dit = s.dit := rfl
@[simp] theorem State.setReg_iset (s : State) (r : Reg) (w : Word) : (s.setReg r w).iset = s.iset := rfl
@[simp] theorem State.setReg_itstate (s : State) (r : Reg) (w : Word) : (s.setReg r w).itstate = s.itstate := rfl
@[simp] theorem State.setReg_mem (s : State) (r : Reg) (w : Word) : (s.setReg r w).mem = s.mem := rfl
@[simp] theorem State.setReg_mark (s : State) (r : Reg) (w : Word) : (s.setReg r w).mark = s.mark := rfl

@[simp] theorem State.reg_setReg_same (s : State) (r : Reg) (w : Word) : (s.setReg r w).reg r = w := by
  simp [State.reg]

theorem State.reg_setReg_other (s : State) {r q : Reg} (w : Word) (h : q ≠ r) : (s.setReg r w).reg q = s.reg q := by
  have hv : (r : Nat) ≠ q := fun e => h (Fin.ext e.symm)
  simp [State.reg, Vector.getElem_set_ne, hv]

/-- Writing a register: the one written holds the value, every other keeps its own. -/
theorem State.reg_setReg (s : State) (r q : Reg) (w : Word) : (s.setReg r w).reg q = if q = r then w else s.reg q := by
  by_cases h : q = r
  · simp [h]
  · simp [h, State.reg_setReg_other s w h]

@[simp] theorem State.setReg_setReg (s : State) (r : Reg) (w w' : Word) : (s.setReg r w).setReg r w' = s.setReg r w' := by
  simp [State.setReg]

/-- Registers are equal when each of them is. -/
theorem State.regs_ext {s t : State} (h : ∀ r : Reg, s.reg r = t.reg r) : s.regs = t.regs := by
  ext i hi
  exact congrArg (BitVec.getLsbD · _) (h ⟨i, hi⟩)

/-! ### Program counter -/

@[simp] theorem State.setPc_regs (s : State) (a : Word) : (s.setPc a).regs = s.regs := rfl
@[simp] theorem State.setPc_pc (s : State) (a : Word) : (s.setPc a).pc = a := rfl
@[simp] theorem State.setPc_n (s : State) (a : Word) : (s.setPc a).n = s.n := rfl
@[simp] theorem State.setPc_z (s : State) (a : Word) : (s.setPc a).z = s.z := rfl
@[simp] theorem State.setPc_c (s : State) (a : Word) : (s.setPc a).c = s.c := rfl
@[simp] theorem State.setPc_v (s : State) (a : Word) : (s.setPc a).v = s.v := rfl
@[simp] theorem State.setPc_dit (s : State) (a : Word) : (s.setPc a).dit = s.dit := rfl
@[simp] theorem State.setPc_iset (s : State) (a : Word) : (s.setPc a).iset = s.iset := rfl
@[simp] theorem State.setPc_itstate (s : State) (a : Word) : (s.setPc a).itstate = s.itstate := rfl
@[simp] theorem State.setPc_mem (s : State) (a : Word) : (s.setPc a).mem = s.mem := rfl
@[simp] theorem State.setPc_mark (s : State) (a : Word) : (s.setPc a).mark = s.mark := rfl

@[simp] theorem State.reg_setPc (s : State) (a : Word) (r : Reg) : (s.setPc a).reg r = s.reg r := rfl

@[simp] theorem State.advancePc_regs (s : State) : (s.advancePc).regs = s.regs := rfl
@[simp] theorem State.advancePc_pc (s : State) : (s.advancePc).pc = s.pc + 4#32 := rfl
@[simp] theorem State.advancePc_n (s : State) : (s.advancePc).n = s.n := rfl
@[simp] theorem State.advancePc_z (s : State) : (s.advancePc).z = s.z := rfl
@[simp] theorem State.advancePc_c (s : State) : (s.advancePc).c = s.c := rfl
@[simp] theorem State.advancePc_v (s : State) : (s.advancePc).v = s.v := rfl
@[simp] theorem State.advancePc_dit (s : State) : (s.advancePc).dit = s.dit := rfl
@[simp] theorem State.advancePc_iset (s : State) : (s.advancePc).iset = s.iset := rfl
@[simp] theorem State.advancePc_itstate (s : State) : (s.advancePc).itstate = s.itstate := rfl
@[simp] theorem State.advancePc_mem (s : State) : (s.advancePc).mem = s.mem := rfl
@[simp] theorem State.advancePc_mark (s : State) : (s.advancePc).mark = s.mark := rfl

@[simp] theorem State.reg_advancePc (s : State) (r : Reg) : s.advancePc.reg r = s.reg r := rfl

/-! ### If-Then state -/

@[simp] theorem State.itAdvance_regs (s : State) : (s.itAdvance).regs = s.regs := by
  unfold State.itAdvance; split <;> rfl
@[simp] theorem State.itAdvance_pc (s : State) : (s.itAdvance).pc = s.pc := by
  unfold State.itAdvance; split <;> rfl
@[simp] theorem State.itAdvance_n (s : State) : (s.itAdvance).n = s.n := by
  unfold State.itAdvance; split <;> rfl
@[simp] theorem State.itAdvance_z (s : State) : (s.itAdvance).z = s.z := by
  unfold State.itAdvance; split <;> rfl
@[simp] theorem State.itAdvance_c (s : State) : (s.itAdvance).c = s.c := by
  unfold State.itAdvance; split <;> rfl
@[simp] theorem State.itAdvance_v (s : State) : (s.itAdvance).v = s.v := by
  unfold State.itAdvance; split <;> rfl
@[simp] theorem State.itAdvance_dit (s : State) : (s.itAdvance).dit = s.dit := by
  unfold State.itAdvance; split <;> rfl
@[simp] theorem State.itAdvance_iset (s : State) : (s.itAdvance).iset = s.iset := by
  unfold State.itAdvance; split <;> rfl
@[simp] theorem State.itAdvance_mem (s : State) : (s.itAdvance).mem = s.mem := by
  unfold State.itAdvance; split <;> rfl
@[simp] theorem State.itAdvance_mark (s : State) : (s.itAdvance).mark = s.mark := by
  unfold State.itAdvance; split <;> rfl

@[simp] theorem State.itAdvance_itstate (s : State) :
    s.itAdvance.itstate = if s.itstate = 0#8 then 0#8 else itNext s.itstate := by
  unfold State.itAdvance
  by_cases h : s.itstate = 0#8 <;> simp [h]

@[simp] theorem State.reg_itAdvance (s : State) (r : Reg) : s.itAdvance.reg r = s.reg r := by
  simp [State.reg]

/-! ### The end of an instruction -/

@[simp] theorem finish_regs (set : ISet) (s : State) : (finish set s).regs = s.regs := by cases set <;> simp [finish]
@[simp] theorem finish_pc (set : ISet) (s : State) : (finish set s).pc = s.pc + 4#32 := by cases set <;> simp [finish]
@[simp] theorem finish_n (set : ISet) (s : State) : (finish set s).n = s.n := by cases set <;> simp [finish]
@[simp] theorem finish_z (set : ISet) (s : State) : (finish set s).z = s.z := by cases set <;> simp [finish]
@[simp] theorem finish_c (set : ISet) (s : State) : (finish set s).c = s.c := by cases set <;> simp [finish]
@[simp] theorem finish_v (set : ISet) (s : State) : (finish set s).v = s.v := by cases set <;> simp [finish]
@[simp] theorem finish_dit (set : ISet) (s : State) : (finish set s).dit = s.dit := by cases set <;> simp [finish]
@[simp] theorem finish_iset (set : ISet) (s : State) : (finish set s).iset = s.iset := by cases set <;> simp [finish]
@[simp] theorem finish_mem (set : ISet) (s : State) : (finish set s).mem = s.mem := by cases set <;> simp [finish]
@[simp] theorem finish_mark (set : ISet) (s : State) : (finish set s).mark = s.mark := by cases set <;> simp [finish]

/-- `ITSTATE` after an instruction: untouched in A32 state and outside an IT block, advanced in one. -/
@[simp] theorem finish_itstate (set : ISet) (s : State) :
    (finish set s).itstate = if set = .t32 ∧ s.itstate ≠ 0#8 then itNext s.itstate else s.itstate := by
  cases set
  · simp [finish]
  · by_cases h : s.itstate = 0#8 <;> simp [finish, h]

@[simp] theorem reg_finish (set : ISet) (s : State) (r : Reg) : (finish set s).reg r = s.reg r := by
  simp [State.reg]

/-! ### Placing a word -/

@[simp] theorem State.withWord_regs (s : State) (set : ISet) (w : Word) : (s.withWord set w).regs = s.regs := rfl
@[simp] theorem State.withWord_pc (s : State) (set : ISet) (w : Word) : (s.withWord set w).pc = s.pc := rfl
@[simp] theorem State.withWord_n (s : State) (set : ISet) (w : Word) : (s.withWord set w).n = s.n := rfl
@[simp] theorem State.withWord_z (s : State) (set : ISet) (w : Word) : (s.withWord set w).z = s.z := rfl
@[simp] theorem State.withWord_c (s : State) (set : ISet) (w : Word) : (s.withWord set w).c = s.c := rfl
@[simp] theorem State.withWord_v (s : State) (set : ISet) (w : Word) : (s.withWord set w).v = s.v := rfl
@[simp] theorem State.withWord_dit (s : State) (set : ISet) (w : Word) : (s.withWord set w).dit = s.dit := rfl
@[simp] theorem State.withWord_iset (s : State) (set : ISet) (w : Word) : (s.withWord set w).iset = set := rfl
@[simp] theorem State.withWord_itstate (s : State) (set : ISet) (w : Word) : (s.withWord set w).itstate = s.itstate := rfl
@[simp] theorem State.withWord_mem (s : State) (set : ISet) (w : Word) : (s.withWord set w).mem = s.mem.load s.pc.toNat (wordBytes set w) := rfl
@[simp] theorem State.withWord_mark (s : State) (set : ISet) (w : Word) : (s.withWord set w).mark = s.mark := rfl

/-! ### Recording a stop -/

/-- A recorded stop changes nothing but the mark. -/
theorem recorded_fault (s : State) (f : Fault) :
    recorded s (.fault f) = s ∨ recorded s (.fault f) = { s with mark := some (.faulted f) } := by
  cases f with
  | undefinedInstruction pc w => exact .inr rfl
  | fetchOutsideText a => exact .inl rfl

@[simp] theorem recorded_next (s t : State) : recorded s (.next t) = t := rfl

@[simp] theorem recorded_refused (s : State) (r : Refusal) :
    recorded s (.refused r) = { s with mark := some (.refused r) } := rfl

end Sys2Proof.Machine
end

