-- ==== Sys2Proof/Laws/PackHalfword.lean ====
section
/-! SUPPORT. Everything the shared Pack Halfword operation and `exec` can do, said once. -/

namespace Sys2Proof.Machine

open Sys2Proof

/-- `operand2` of PKHBT: shifted left by the field. -/
theorem operand2_bt (imm5 : BitVec 5) (m : Reg) (s : State) : operand2 false imm5 m s = lsl32 (s.reg m) imm5.toNat :=
  shift_lsl (s.reg m) imm5.toNat s.c

/-- `operand2` of PKHTB: shifted right arithmetically, a zero field standing for 32. -/
theorem operand2_tb (imm5 : BitVec 5) (m : Reg) (s : State) : operand2 true imm5 m s = asr32 (s.reg m) (amountOr32 imm5) :=
  shift_asr (s.reg m) (amountOr32_pos imm5) s.c

@[simp] theorem packed_bt (a b : Word) : packed false a b = top b ++ bottom a := rfl

@[simp] theorem packed_tb (a b : Word) : packed true a b = top a ++ bottom b := rfl

/-- The value PKHBT and PKHTB give `x[d]`, from the registers before. -/
theorem reg_packExec (set : ISet) (cond : BitVec 4) (tbform : Bool) (d n : Reg) (imm5 : BitVec 5) (m : Reg) (s : State) (r : Reg) :
    (packExec set cond tbform d n imm5 m s).reg r =
      if condHolds cond s ∧ r = d then packed tbform (s.reg n) (operand2 tbform imm5 m s) else s.reg r := by
  unfold packExec
  cases h : condHolds cond s
  · simp
  · by_cases hr : r = d <;> simp [packWrite, State.reg_setReg, hr]

section

variable (set : ISet) (cond : BitVec 4) (tbform : Bool) (d n : Reg) (imm5 : BitVec 5) (m : Reg) (s : State)

@[simp] theorem packExec_pc : (packExec set cond tbform d n imm5 m s).pc = s.pc + 4#32 := by
  unfold packExec; cases h : condHolds cond s <;> simp [packWrite]
@[simp] theorem packExec_n : (packExec set cond tbform d n imm5 m s).n = s.n := by
  unfold packExec; cases h : condHolds cond s <;> simp [packWrite]
@[simp] theorem packExec_z : (packExec set cond tbform d n imm5 m s).z = s.z := by
  unfold packExec; cases h : condHolds cond s <;> simp [packWrite]
@[simp] theorem packExec_c : (packExec set cond tbform d n imm5 m s).c = s.c := by
  unfold packExec; cases h : condHolds cond s <;> simp [packWrite]
@[simp] theorem packExec_v : (packExec set cond tbform d n imm5 m s).v = s.v := by
  unfold packExec; cases h : condHolds cond s <;> simp [packWrite]
@[simp] theorem packExec_dit : (packExec set cond tbform d n imm5 m s).dit = s.dit := by
  unfold packExec; cases h : condHolds cond s <;> simp [packWrite]
@[simp] theorem packExec_iset : (packExec set cond tbform d n imm5 m s).iset = s.iset := by
  unfold packExec; cases h : condHolds cond s <;> simp [packWrite]
@[simp] theorem packExec_mem : (packExec set cond tbform d n imm5 m s).mem = s.mem := by
  unfold packExec; cases h : condHolds cond s <;> simp [packWrite]
@[simp] theorem packExec_mark : (packExec set cond tbform d n imm5 m s).mark = s.mark := by
  unfold packExec; cases h : condHolds cond s <;> simp [packWrite]
@[simp] theorem packExec_itstate : (packExec set cond tbform d n imm5 m s).itstate =
    if set = .t32 ∧ s.itstate ≠ 0#8 then itNext s.itstate else s.itstate := by
  unfold packExec
  cases set <;> cases h : condHolds cond s <;> by_cases hz : s.itstate = 0#8 <;> simp [packWrite, hz]

end

/-- The shared meaning on registers 0 to 14: it completes. -/
@[simp] theorem packChecked_fieldOf (set : ISet) (w : Word) (cond : BitVec 4) (tbform : Bool) (d n : Reg) (imm5 : BitVec 5) (m : Reg)
    (s : State) :
    packChecked set w cond tbform (fieldOf d) (fieldOf n) imm5 (fieldOf m) s = .next (packExec set cond tbform d n imm5 m s) := by
  simp [packChecked]

/-- The shared meaning when a field is 15: it refuses (30_encoding.md R43, R50). -/
theorem packChecked_fifteen {set : ISet} {w : Word} {cond : BitVec 4} {tbform : Bool} {rd rn : RegField} {imm5 : BitVec 5} {rm : RegField}
    {s : State} (h : ¬ RegsDefined rd rn rm) :
    packChecked set w cond tbform rd rn imm5 rm s = .refused (.unpredictableR15 s.pc w) := by
  unfold packChecked
  split
  · rename_i d n m hd hn hm
    rw [regOf_eq_some] at hd hn hm
    subst hd hn hm
    exact absurd ⟨fieldOf_ne_fifteen _, fieldOf_ne_fifteen _, fieldOf_ne_fifteen _⟩ h
  · rfl

/-- The shared meaning can do these two things and nothing else. -/
theorem packChecked_cases (set : ISet) (w : Word) (cond : BitVec 4) (tbform : Bool) (rd rn : RegField) (imm5 : BitVec 5) (rm : RegField)
    (s : State) :
    (∃ d n m : Reg, rd = fieldOf d ∧ rn = fieldOf n ∧ rm = fieldOf m ∧
      packChecked set w cond tbform rd rn imm5 rm s = .next (packExec set cond tbform d n imm5 m s)) ∨
    (¬ RegsDefined rd rn rm ∧ packChecked set w cond tbform rd rn imm5 rm s = .refused (.unpredictableR15 s.pc w)) := by
  by_cases h : RegsDefined rd rn rm
  · obtain ⟨d, rfl⟩ := exists_fieldOf h.1
    obtain ⟨n, rfl⟩ := exists_fieldOf h.2.1
    obtain ⟨m, rfl⟩ := exists_fieldOf h.2.2
    exact .inl ⟨d, n, m, rfl, rfl, rfl, packChecked_fieldOf ..⟩
  · exact .inr ⟨h, packChecked_fifteen h⟩

/-- When `exec` answers a next state, the instruction is a Pack Halfword on registers 0 to 14 and the state is `packExec`'s. -/
theorem exec_next {i : Instr} {s t : State} (h : exec i s = .next t) :
    ∃ (cond : BitVec 4) (tbform : Bool) (d n : Reg) (imm5 : BitVec 5) (m : Reg), t = packExec i.iset cond tbform d n imm5 m s ∧
      ((i = .pkhbtA1 cond (fieldOf n) (fieldOf d) imm5 (fieldOf m) ∧ tbform = false) ∨
       (i = .pkhtbA1 cond (fieldOf n) (fieldOf d) imm5 (fieldOf m) ∧ tbform = true) ∨
       (i = .pkhbtT1 (fieldOf n) (fieldOf d) imm5 (fieldOf m) ∧ tbform = false ∧ cond = condT32 s.itstate) ∨
       (i = .pkhtbT1 (fieldOf n) (fieldOf d) imm5 (fieldOf m) ∧ tbform = true ∧ cond = condT32 s.itstate)) := by
  cases i with
  | pkhbtA1 cond rn rd imm5 rm =>
    rcases packChecked_cases .a32 (encodeWord (.pkhbtA1 cond rn rd imm5 rm)) cond false rd rn imm5 rm s with
      ⟨d, n, m, rfl, rfl, rfl, he⟩ | ⟨_, he⟩
    · have ht := Host.Outcome.next.inj (h.symm.trans he)
      exact ⟨cond, false, d, n, imm5, m, ht, .inl ⟨rfl, rfl⟩⟩
    · exact nomatch h.symm.trans he
  | pkhtbA1 cond rn rd imm5 rm =>
    rcases packChecked_cases .a32 (encodeWord (.pkhtbA1 cond rn rd imm5 rm)) cond true rd rn imm5 rm s with
      ⟨d, n, m, rfl, rfl, rfl, he⟩ | ⟨_, he⟩
    · have ht := Host.Outcome.next.inj (h.symm.trans he)
      exact ⟨cond, true, d, n, imm5, m, ht, .inr (.inl ⟨rfl, rfl⟩)⟩
    · exact nomatch h.symm.trans he
  | pkhbtT1 rn rd imm5 rm =>
    rcases packChecked_cases .t32 (encodeWord (.pkhbtT1 rn rd imm5 rm)) (condT32 s.itstate) false rd rn imm5 rm s with
      ⟨d, n, m, rfl, rfl, rfl, he⟩ | ⟨_, he⟩
    · have ht := Host.Outcome.next.inj (h.symm.trans he)
      exact ⟨_, false, d, n, imm5, m, ht, .inr (.inr (.inl ⟨rfl, rfl, rfl⟩))⟩
    · exact nomatch h.symm.trans he
  | pkhtbT1 rn rd imm5 rm =>
    rcases packChecked_cases .t32 (encodeWord (.pkhtbT1 rn rd imm5 rm)) (condT32 s.itstate) true rd rn imm5 rm s with
      ⟨d, n, m, rfl, rfl, rfl, he⟩ | ⟨_, he⟩
    · have ht := Host.Outcome.next.inj (h.symm.trans he)
      exact ⟨_, true, d, n, imm5, m, ht, .inr (.inr (.inr ⟨rfl, rfl, rfl⟩))⟩
    · exact nomatch h.symm.trans he
  | undefinedT1S rn lo15 => exact nomatch h
  | undefinedT1T rn mid10 rm => exact nomatch h
  | reservedT1Sbz15 sbit rn lo15 => exact nomatch h
  | reservedA1Cond1111 mid14 rm => exact nomatch h

end Sys2Proof.Machine
end

