-- ==== Sys2Proof/Laws/PerInstr.lean ====
section
/-! SUPPORT. Statements for all instructions, one lemma per constructor. -/

namespace Sys2Proof.Laws.RowMatch

open Sys2Proof

/-- The word of an instruction has the fixed bits of its row of spec/opcode_table.json, and the row is of the instruction's own set. -/
def Statement (i : Instr) : Prop := encodeWord i &&& i.row.mask = i.row.pattern ∧ i.row.isa = i.iset

theorem pkhbtA1 (cond : BitVec 4) (rn rd : RegField) (imm5 : BitVec 5) (rm : RegField) : Statement (.pkhbtA1 cond rn rd imm5 rm) := by
  refine ⟨BitVec.eq_of_getLsbD_eq fun i hi => ?_, rfl⟩
  simp only [encodeWord, encodeA1, Instr.row, BitVec.getLsbD_and, BitVec.getLsbD_append]
  interval_cases i <;> simp

theorem pkhtbA1 (cond : BitVec 4) (rn rd : RegField) (imm5 : BitVec 5) (rm : RegField) : Statement (.pkhtbA1 cond rn rd imm5 rm) := by
  refine ⟨BitVec.eq_of_getLsbD_eq fun i hi => ?_, rfl⟩
  simp only [encodeWord, encodeA1, Instr.row, BitVec.getLsbD_and, BitVec.getLsbD_append]
  interval_cases i <;> simp

theorem pkhbtT1 (rn rd : RegField) (imm5 : BitVec 5) (rm : RegField) : Statement (.pkhbtT1 rn rd imm5 rm) := by
  refine ⟨BitVec.eq_of_getLsbD_eq fun i hi => ?_, rfl⟩
  simp only [encodeWord, encodeT1, Instr.row, BitVec.getLsbD_and, BitVec.getLsbD_append]
  interval_cases i <;> simp

theorem pkhtbT1 (rn rd : RegField) (imm5 : BitVec 5) (rm : RegField) : Statement (.pkhtbT1 rn rd imm5 rm) := by
  refine ⟨BitVec.eq_of_getLsbD_eq fun i hi => ?_, rfl⟩
  simp only [encodeWord, encodeT1, Instr.row, BitVec.getLsbD_and, BitVec.getLsbD_append]
  interval_cases i <;> simp

theorem undefinedT1S (rn : RegField) (lo15 : BitVec 15) : Statement (.undefinedT1S rn lo15) := by
  refine ⟨BitVec.eq_of_getLsbD_eq fun i hi => ?_, rfl⟩
  simp only [encodeWord, Instr.row, BitVec.getLsbD_and, BitVec.getLsbD_append]
  interval_cases i <;> simp

theorem undefinedT1T (rn : RegField) (mid10 : BitVec 10) (rm : RegField) : Statement (.undefinedT1T rn mid10 rm) := by
  refine ⟨BitVec.eq_of_getLsbD_eq fun i hi => ?_, rfl⟩
  simp only [encodeWord, Instr.row, BitVec.getLsbD_and, BitVec.getLsbD_append]
  interval_cases i <;> simp

theorem reservedT1Sbz15 (s : BitVec 1) (rn : RegField) (lo15 : BitVec 15) : Statement (.reservedT1Sbz15 s rn lo15) := by
  refine ⟨BitVec.eq_of_getLsbD_eq fun i hi => ?_, rfl⟩
  simp only [encodeWord, Instr.row, BitVec.getLsbD_and, BitVec.getLsbD_append]
  interval_cases i <;> simp

theorem reservedA1Cond1111 (mid14 : BitVec 14) (rm : RegField) : Statement (.reservedA1Cond1111 mid14 rm) := by
  refine ⟨BitVec.eq_of_getLsbD_eq fun i hi => ?_, rfl⟩
  simp only [encodeWord, Instr.row, BitVec.getLsbD_and, BitVec.getLsbD_append]
  interval_cases i <;> simp

end Sys2Proof.Laws.RowMatch
end

