-- ==== Sys2Proof/Laws/Step.lean ====
section
/-! SUPPORT. What a step can do, said once. -/

namespace Sys2Proof.Machine

open Sys2Proof

/-- A step answers a next state exactly when nothing stops it before its instruction and the instruction answers it. -/
theorem stepWith_next {p : ItSupport} {s t : State} :
    stepWith p s = .next t ↔ s.mark = none ∧ stepCheck p s = none ∧ ∃ i, fetchDecode s = .next i ∧ exec i s = .next t := by
  unfold stepWith fetch
  cases hm : s.mark with
  | some m => cases m <;> simp
  | none =>
    cases hc : stepCheck p s with
    | some r => simp
    | none => cases hf : fetchDecode s <;> simp

/-- A step-level refusal comes before the fetch (60_exceptions.md R78). -/
theorem stepWith_of_check {p : ItSupport} {s : State} {r : Refusal} (hm : s.mark = none) (hc : stepCheck p s = some r) :
    stepWith p s = .refused r := by
  simp [stepWith, fetch, hm, hc]

/-- A ready step is what the fetch and the instruction make it. -/
theorem stepWith_of_ready {p : ItSupport} {s : State} (hm : s.mark = none) (hc : stepCheck p s = none) :
    stepWith p s =
      match fetchDecode s with
      | .next i => exec i s
      | .fault f => .fault f
      | .refused r => .refused r := by
  cases h : fetchDecode s <;> simp [stepWith, fetch, hm, hc, h]

/-- Nothing refuses the step before its word: the pc is aligned, does not wrap, and in T32 state `ITSTATE` is admitted. -/
theorem stepCheck_eq_none {p : ItSupport} {s : State} :
    stepCheck p s = none ↔
      pcAligned s.iset s.pc = true ∧ pcWraps s.pc = false ∧ (s.iset = .t32 → itRefused p s.itstate = false) := by
  unfold stepCheck
  cases pcAligned s.iset s.pc <;> cases pcWraps s.pc <;> cases s.iset <;> cases itRefused p s.itstate <;> simp

/-- The first fetch of a state, once its four bytes are known. -/
theorem fetchDecode_of_bytes {s : State} {bs : List Byte} (h : s.mem.fetchBytes s.pc.toNat 4 = bs) :
    fetchDecode s =
      match decode s.iset bs with
      | .instr i _ => .next i
      | .notInSource w => .refused (.wordNotInSource s.pc w)
      | .truncated got => .fault (.fetchOutsideText (s.pc + BitVec.ofNat 32 got)) := by
  subst h; rfl

/-- A word placed at the pc is what the next fetch reads. -/
theorem fetchBytes_withWord (s : State) (set : ISet) (w : Word) :
    (s.withWord set w).mem.fetchBytes (s.withWord set w).pc.toNat 4 = wordBytes set w := by
  have h := Memory.fetchBytes_load s.mem s.pc.toNat (wordBytes set w)
  rwa [wordBytes_length] at h

/-- Every next state of a step is `packExec`'s of a Pack Halfword fetched at the pc. -/
theorem stepWith_next_cases {p : ItSupport} {s t : State} (h : stepWith p s = .next t) :
    s.mark = none ∧ stepCheck p s = none ∧ ∃ (set : ISet) (cond : BitVec 4) (tbform : Bool) (d n : Reg) (imm5 : BitVec 5) (m : Reg),
      t = packExec set cond tbform d n imm5 m s := by
  obtain ⟨hm, hc, i, _, he⟩ := stepWith_next.mp h
  obtain ⟨cond, tbform, d, n, imm5, m, rfl, _⟩ := exec_next he
  exact ⟨hm, hc, _, cond, tbform, d, n, imm5, m, rfl⟩

/-- The instruction a fetch gives is of the current instruction set. -/
theorem fetchDecode_iset {s : State} {i : Instr} (h : fetchDecode s = .next i) : ∃ w, decodeWord s.iset w = some i := by
  unfold fetchDecode at h
  split at h
  · rename_i j rest hd
    obtain rfl := Host.Outcome.next.inj h
    have key : ∀ {set : ISet} {w : Word} {r : List Byte}, decodedOf set w r = .instr j rest → ∃ w, decodeWord set w = some j := by
      intro set w r hk
      unfold decodedOf at hk
      split at hk
      · rename_i k hkw
        exact ⟨w, by rw [hkw, (Decoded.instr.inj hk).1]⟩
      · exact nomatch hk
    unfold decode at hd
    split at hd
    · rename_i hset _
      rw [hset]
      exact key hd
    · exact nomatch hd
    · rename_i hset _
      rw [hset]
      split at hd
      · unfold decodeSecondHalf at hd
        split at hd
        · exact key hd
        · exact nomatch hd
      · exact nomatch hd
    · exact nomatch hd
  · exact nomatch h
  · exact nomatch h

end Sys2Proof.Machine
end

