-- ==== Sys2Proof/Tests/Slice0.lean ====
section
/-! SUPPORT. The model's own tests: words and values from 95_test_vectors.md and the rules' own words (30_encoding.md, 40_pack_halfword.md), each about one step, and a witness for the hypotheses of every statement that has any. -/

namespace Sys2Proof.Tests

open Sys2Proof Sys2Proof.Machine

/-! ### Small states -/

/-- Reset, at address `pc`, with `x[1]`, `x[2]` and `x[5]` holding values. -/
def base (pc x1 x2 x5 : Word) : State :=
  ((({ State.reset with pc := pc } : State).setReg 1 x1).setReg 2 x2).setReg 5 x5

/-- The values of most rows of 95_test_vectors.md section 2. -/
def usual : State := base 0x1000#32 0x11112222#32 0x33334444#32 0x89ABCDEF#32

/-- `usual` with an A32 word at the pc. -/
def a32 (w : Nat) : State := usual.withWord .a32 (BitVec.ofNat 32 w)

/-- `usual` with a 32-bit T32 instruction at the pc, `hw1:hw2`. -/
def t32 (w : Nat) : State := usual.withWord .t32 (BitVec.ofNat 32 w)

/-- Sources `x[1]` and `x[2]` with an A32 word at the pc. -/
def a32With (x1 x2 : Word) (w : Nat) : State := (base 0x1000#32 x1 x2 0#32).withWord .a32 (BitVec.ofNat 32 w)

/-- Sources `x[1]` and `x[2]` with a T32 instruction at the pc. -/
def t32With (x1 x2 : Word) (w : Nat) : State := (base 0x1000#32 x1 x2 0#32).withWord .t32 (BitVec.ofNat 32 w)

/-- The value of one register after a step that has a next state. -/
def regAfter (r : Reg) (s : State) : Option Word :=
  match step s with
  | .next t => some (t.reg r)
  | .fault _ => none
  | .refused _ => none

/-- The fault of a step. -/
def faultOf (s : State) : Option Fault :=
  match step s with
  | .next _ => none
  | .fault f => some f
  | .refused _ => none

/-- The refusal of a step. -/
def refusalOf (s : State) : Option Refusal :=
  match step s with
  | .next _ => none
  | .fault _ => none
  | .refused r => some r

/-- Whether a step has a next state, and it meets `good`. -/
def nextMeets (p : ItSupport) (s : State) (good : State → Bool) : Bool :=
  match stepWith p s with
  | .next t => good t
  | .fault _ => false
  | .refused _ => false

/-- Whether an instruction has a next state, and it meets `good`. -/
def execMeets (i : Instr) (s : State) (good : State → Bool) : Bool :=
  match exec i s with
  | .next t => good t
  | .fault _ => false
  | .refused _ => false

/-! ### Well-formedness -/

/-- Ill-formed: an A1 term with `cond = 1111` has no encoding (R39, R40). -/
theorem test_wellFormed_refuses_cond1111 :
    (Instr.pkhbtA1 15 1 0 16 2).wellFormed = false ∧ (Instr.pkhtbA1 15 1 0 16 2).wellFormed = false ∧
    (Instr.pkhbtA1 14 1 0 16 2).wellFormed = true ∧ (Instr.pkhtbA1 0 1 0 16 2).wellFormed = true := by decide

/-- Not defined: register 15 in any field (R43, R50); register 13 is permitted (R15). -/
theorem test_defined_refuses_r15 :
    (Instr.pkhbtA1 14 1 15 0 2).defined = false ∧ (Instr.pkhtbA1 14 15 1 0 2).defined = false ∧
    (Instr.pkhbtT1 1 0 0 15).defined = false ∧ (Instr.pkhtbT1 1 15 0 2).defined = false ∧
    (Instr.pkhbtT1 13 13 5 13).defined = true := by decide

/-! ### Decoding: words of 95_test_vectors.md section 3 -/

/-- A1, A2 and A3: `PKHTB R3, R4, R5, ASR #16`, `PKHTB R3, R4, R5, ASR #32`, `PKHBT R3, R4, R5`. -/
theorem test_decode_A1_to_A3 :
    decodeTableWord 32 0xE6843855 = some (.pkhtbA1 14 4 3 16 5) ∧
    decodeTableWord 32 0xE6843055 = some (.pkhtbA1 14 4 3 0 5) ∧
    decodeTableWord 32 0xE6843015 = some (.pkhbtA1 14 4 3 0 5) := by decide

/-- T4, T5 and T8: the amounts 3, 7 and 29 split into `imm3:imm2`. -/
theorem test_decode_T4_T5_T8 :
    decodeTableWord 32 0xEAC807C9 = some (.pkhbtT1 8 7 3 9) ∧
    decodeTableWord 32 0xEACE1CED = some (.pkhtbT1 14 12 7 13) ∧
    decodeTableWord 32 0xEAC17062 = some (.pkhtbT1 1 0 29 2) := by decide

/-- D-T5 and D-T3: bit 15 is tested before `S` and `T`; with both set the `S` row holds. -/
theorem test_decode_priorities :
    decodeTableWord 32 0xEAD1C002 = some (.reservedT1Sbz15 1 1 0x4002) ∧
    decodeTableWord 32 0xEAD14012 = some (.undefinedT1S 1 0x4012) := by decide

/-- D-A6, D-A7, D-T9 and D-T10: words outside the source; a 16-bit instruction is two bytes. -/
theorem test_decode_not_in_source :
    decode .a32 [0x32, 0x08, 0x81, 0xE6] = .notInSource 0xE6810832 ∧
    decode .a32 [0x12, 0x08, 0x91, 0xE6] = .notInSource 0xE6910812 ∧
    decode .t32 [0x81, 0xEA, 0x02, 0x40] = .notInSource 0xEA814002 ∧
    decode .t32 [0x08, 0x46] = .notInSource 0x4608 := by decide

/-- Bytes that end inside the instruction. -/
theorem test_decode_truncated :
    decode .a32 [0x12, 0x08, 0x81] = .truncated 3 ∧ decode .t32 [0xC1, 0xEA, 0x02] = .truncated 3 ∧
    decode .t32 [0xC1] = .truncated 1 := by decide

/-- A6 and T6 encode to the bytes the spec gives. -/
theorem test_encode :
    encode (.pkhbtA1 14 1 0 16 2) = [0x12, 0x08, 0x81, 0xE6] ∧
    encode (.pkhbtT1 1 0 31 2) = [0xC1, 0xEA, 0xC2, 0x70] := by decide

/-! ### The host's placing of a word -/

/-- A table word of either instruction set, placed at reset, runs as the first step. -/
theorem test_withFetchWord_runs :
    nextMeets Config.pIT (State.reset.withFetchWord 32 0xE6810812) (fun t => t.pc == 4#32) = true ∧
    nextMeets Config.pIT (State.reset.withFetchWord 32 0xEAC14002) (fun t => t.pc == 4#32 && t.iset == .t32) = true := by decide

/-- The neighbouring words, placed at reset, stop by name. -/
theorem test_withFetchWord_stops :
    faultOf (State.reset.withFetchWord 32 0xEAD14002) = some (.undefinedInstruction 0 0xEAD14002) ∧
    faultOf (State.reset.withFetchWord 32 0xEAC14012) = some (.undefinedInstruction 0 0xEAC14012) ∧
    refusalOf (State.reset.withFetchWord 32 0xEAC1C002) = some (.sbz15 0 0xEAC1C002) ∧
    refusalOf (State.reset.withFetchWord 32 0xF6810812) = some (.wordNotInSource 0 0xF6810812) := by decide

/-! ### Values: section 2 -/

/-- V4 and V9, PKHBT_A1. -/
theorem test_pkhbtA1_values :
    regAfter 0 (a32With 0xAAAABBBB 0xC000FFFF 0xE6810092) = some 0x8001BBBB ∧
    regAfter 0 (a32With 0x11112222 0x00018000 0xE6810792) = some 0xC0002222 := by decide

/-- V24, PKHBT_A1 on one register. -/
theorem test_pkhbtA1_one_register : regAfter 5 (a32 0xE6855415) = some 0xABCDCDEF := by decide

/-- V16, V17 and V21, PKHTB_A1: field 0 shifts by 32, and the shift is arithmetic. -/
theorem test_pkhtbA1_values :
    regAfter 0 (a32With 0xAAAABBBB 0x80000000 0xE6810052) = some 0xAAAAFFFF ∧
    regAfter 0 (a32With 0xAAAABBBB 0x7FFFFFFF 0xE6810052) = some 0xAAAA0000 ∧
    regAfter 0 (a32With 0x11112222 0x8765FFFF 0xE68108D2) = some 0x1111C3B2 := by decide

/-- V25 and V26, PKHTB_A1 on one register. -/
theorem test_pkhtbA1_one_register :
    regAfter 5 (a32 0xE6855455) = some 0x89ABABCD ∧ regAfter 5 (a32 0xE6855055) = some 0x89ABFFFF := by decide

/-- V5 and V10, PKHBT_T1. -/
theorem test_pkhbtT1_values :
    regAfter 0 (t32With 0xAAAABBBB 0x00000001 0xEAC170C2) = some 0x8000BBBB ∧
    regAfter 0 (t32With 0x11112222 0x0000FFFF 0xEAC14042) = some 0xFFFE2222 := by decide

/-- V14 and V22, PKHTB_T1. -/
theorem test_pkhtbT1_values :
    regAfter 0 (t32With 0xAAAABBBB 0x80000000 0xEAC170E2) = some 0xAAAAFFFF ∧
    regAfter 0 (t32With 0x11112222 0x8765FFFF 0xEAC130E2) = some 0x11110ECB := by decide

/-! ### Conditions: section 4 -/

/-- The conditions 0 to 14 that hold, as a list of their codes. -/
def holding (n z c v : Bool) : List (BitVec 4) :=
  [0, 1, 2, 3, 4, 5, 6, 7, 8, 9, 10, 11, 12, 13, 14].filter
    fun cond => condHolds cond { State.reset with n := n, z := z, c := c, v := v }

/-- The first four rows of the table of section 4. -/
theorem test_conditions_first :
    holding false false false false = [1, 3, 5, 7, 9, 10, 12, 14] ∧
    holding false true false false = [0, 3, 5, 7, 9, 10, 13, 14] ∧
    holding false false true false = [1, 2, 5, 7, 8, 10, 12, 14] ∧
    holding false true true false = [0, 2, 5, 7, 9, 10, 13, 14] := by decide

/-- The last four rows of the table of section 4. -/
theorem test_conditions_last :
    holding true false false false = [1, 3, 4, 7, 9, 11, 13, 14] ∧
    holding false false false true = [1, 3, 5, 6, 9, 11, 13, 14] ∧
    holding true false false true = [1, 3, 4, 6, 9, 10, 12, 14] ∧
    holding true true true true = [0, 2, 4, 6, 9, 10, 13, 14] := by decide

/-- `PKHBTEQ` with `Z = 0` leaves the register and moves the pc on. -/
theorem test_condition_failed :
    nextMeets Config.pIT (a32 0x06810812) (fun t => t.reg 0 == 0#32 && t.pc == 0x1004#32) = true := by decide

/-! ### If-Then (10_state.md R24) -/

/-- `ITSTATE = 00001000`, condition EQ, last of its block: with `Z = 0` nothing is written, and the block ends. -/
theorem test_it_last :
    nextMeets .full { t32 0xEAC14002 with itstate := 0b00001000#8 }
      (fun t => t.reg 0 == 0#32 && t.itstate == 0#8 && t.pc == 0x1004#32) = true := by decide

/-- `ITSTATE = 00011100`, condition NE, one more to come: `ITSTATE<4:0>` shifts left, bits 7:5 stay. -/
theorem test_it_more :
    nextMeets .full { t32 0xEAC14002 with itstate := 0b00011100#8 }
      (fun t => t.reg 0 == 0x44442222#32 && t.itstate == 0b00011000#8) = true := by decide

/-! ### Stops: section 3.3 -/

/-- D-A1, D-A2, D-A3 and D-A4: register 15, also under a failed condition. -/
theorem test_r15_a32 :
    refusalOf (a32 0xE681F012) = some (.unpredictableR15 0x1000 0xE681F012) ∧
    refusalOf (a32 0xE68F0012) = some (.unpredictableR15 0x1000 0xE68F0012) ∧
    refusalOf (a32 0xE681001F) = some (.unpredictableR15 0x1000 0xE681001F) ∧
    refusalOf (a32 0x0681F012) = some (.unpredictableR15 0x1000 0x0681F012) := by decide

/-- D-T6, D-T7, D-T8, and D-T3 (UNDEFINED before register 15). -/
theorem test_r15_t32 :
    refusalOf (t32 0xEAC10F02) = some (.unpredictableR15 0x1000 0xEAC10F02) ∧
    refusalOf (t32 0xEACF0002) = some (.unpredictableR15 0x1000 0xEACF0002) ∧
    refusalOf (t32 0xEAC1000F) = some (.unpredictableR15 0x1000 0xEAC1000F) ∧
    faultOf (t32 0xEAD10F02) = some (.undefinedInstruction 0x1000 0xEAD10F02) := by decide

/-- A state at `pc` of `set`, with nothing loaded. -/
def bare (set : ISet) (pc : Word) : State := { State.reset with iset := set, pc := pc }

/-- D-X1, D-X2 and D-X3. -/
theorem test_step_level :
    refusalOf (bare .a32 0x1002) = some (.pcMisaligned 0x1002) ∧
    refusalOf (bare .t32 0x1001) = some (.pcMisaligned 0x1001) ∧
    refusalOf (bare .a32 0xFFFFFFFC) = some (.pcWrap 0xFFFFFFFC) := by decide

/-- D-X4, and the state no IT block has. -/
theorem test_it_refused :
    stepWith .outsideOnly { t32 0xEAC14002 with itstate := 0b00001000#8 } = .refused (.itBlock 0x1000) ∧
    stepWith .full { t32 0xEAC14002 with itstate := 0b00010000#8 } = .refused (.itBlock 0x1000) := ⟨rfl, rfl⟩

/-- From bare reset the first step is stuck: no program is loaded. -/
theorem test_reset_stuck : faultOf State.reset = some (.fetchOutsideText 0) := by decide

/-! ### Assembler: sections 3.1, 3.2 and 3.4 -/

/-- A7 and T7: the pseudo-instruction `PKHTB R0, R1, R2` is `PKHBT R0, R2, R1`. -/
theorem test_pseudo :
    assemble ⟨.a32, none, false⟩ ⟨.pkhtb, none, none, some 0, 1, 2, none⟩ = .ok (.pkhbtA1 14 2 0 0 1) ∧
    encodeWord (.pkhbtA1 14 2 0 0 1) = 0xE6820011#32 ∧
    assemble ⟨.t32, none, false⟩ ⟨.pkhtb, none, none, some 0, 1, 2, none⟩ = .ok (.pkhbtT1 2 0 0 1) ∧
    encodeWord (.pkhbtT1 2 0 0 1) = 0xEAC20001#32 := by decide

/-- A8: `PKHBT R1, R2` with `Rd` omitted. -/
theorem test_rd_omitted :
    assemble ⟨.a32, none, false⟩ ⟨.pkhbt, none, none, none, 1, 2, none⟩ = .ok (.pkhbtA1 14 1 1 0 2) ∧
    encodeWord (.pkhbtA1 14 1 1 0 2) = 0xE6811012#32 := by decide

/-- D1 to D4: what is printed. -/
theorem test_disassembly :
    (disassemble none (.pkhbtA1 14 1 0 0 2)).map Line.text = some "PKHBT R0, R1, R2" ∧
    (disassemble none (.pkhtbA1 14 1 0 0 2)).map Line.text = some "PKHTB R0, R1, R2, ASR #32" ∧
    (disassemble none (.pkhbtA1 14 2 0 0 1)).map Line.text = some "PKHBT R0, R2, R1" ∧
    (disassemble none (.pkhbtA1 0 8 7 3 9)).map Line.text = some "PKHBTEQ R7, R8, R9, LSL #3" := by decide

/-! ### Witnesses: for each statement with hypotheses, concrete values that meet all of them -/

/-- Nothing stops the step before the word, and the word stands at the pc. -/
abbrev Ready (p : ItSupport) (s : State) (set : ISet) (w : Word) : Prop :=
  StepReady p s ∧ s.iset = set ∧ TextHolds s w

/-- A launch of one instruction at 0x8000, in T32 inside an IT block. -/
def launch : Launch where
  regs := Vector.replicate 15 0#32
  pc := 0x8000#32
  n := false
  z := false
  c := false
  v := false
  dit := some true
  iset := .t32
  itstate := 0b00001000#8
  text := [(0x8000, 0xC1), (0x8001, 0xEA), (0x8002, 0x02), (0x8003, 0x40)]
  endAddr := 0x8004#32

theorem witness_LaunchMeetsInvariant :
    launch.ok .full .present = true ∧ pcWraps launch.pc = false ∧
    ({ launch with itstate := 0#8 } : Launch).ok .outsideOnly .present = true ∧
    ({ launch with dit := none } : Launch).ok .full .absent = true := by decide

/-- A launch under each setting of `P_DIT`, and what a launch may not be under the other. -/
theorem witness_DitExistsAsLaunched :
    launch.ok .full .present = true ∧ ({ launch with dit := none } : Launch).ok .full .absent = true ∧
    launch.ok .full .absent = false ∧ ({ launch with dit := none } : Launch).ok .full .present = false := by decide

/-- `P_DIT` absent: bit 21 is from outside; present: it is the bit. -/
theorem test_cpsr_dit :
    (({ usual with dit := none } : State).cpsr 0x00200000#32).getLsbD 21 = true ∧
    (({ usual with dit := some false } : State).cpsr 0x00200000#32).getLsbD 21 = false := by decide

theorem witness_DecodeOfEncode :
    (Instr.pkhtbA1 1 14 12 31 13).wellFormed = true ∧ (Instr.pkhbtT1 15 15 0 15).wellFormed = true ∧
    (Instr.undefinedT1S 1 0x4002).wellFormed = true ∧ (Instr.reservedA1Cond1111 0x420 2).wellFormed = true := by decide

theorem witness_EncodeOfDecode :
    decode .a32 [0xDD, 0xC3, 0x8E, 0x16, 0xFF] = .instr (.pkhtbA1 1 14 12 7 13) [0xFF] ∧
    decode .t32 [0xC1, 0xEA, 0x02, 0xC0] = .instr (.reservedT1Sbz15 0 1 0x4002) [] := by decide

theorem witness_A1WordsAndFields :
    decodeA32Word 0xE6810812 = some (.pkhbtA1 14 1 0 16 2) ∧ decodeA32Word 0xE6843055 = some (.pkhtbA1 14 4 3 0 5) := by decide

theorem witness_T1WordsAndFields :
    decodeT32Word 0xEAC17062 = some (.pkhtbT1 1 0 29 2) ∧ decodeT32Word 0xEACD1D4D = some (.pkhbtT1 13 13 5 13) := by decide

theorem witness_StepRunsDecodedInstruction :
    StepReady .full (t32 0xEAC14002) ∧
    decode (t32 0xEAC14002).iset ((t32 0xEAC14002).mem.fetchBytes (t32 0xEAC14002).pc.toNat 4) = .instr (.pkhbtT1 1 0 16 2) [] := by
  decide

/-- One word for each branch: bits 5:4, `cond = 1111`, each register field, and a defined instruction. -/
theorem witness_A32WordOutcomes :
    Ready .full (a32 0xE6810832) .a32 0xE6810832 ∧ Ready .full (a32 0xF6810812) .a32 0xF6810812 ∧
    Ready .full (a32 0xE681F012) .a32 0xE681F012 ∧ Ready .full (a32 0xE68F0012) .a32 0xE68F0012 ∧
    Ready .full (a32 0xE681001F) .a32 0xE681001F ∧ Ready .outsideOnly (a32 0xE6810812) .a32 0xE6810812 := by decide

/-- A halfword of text, and what it starts. -/
def narrow : State := { usual with iset := .t32, mem := [(0x1000, 0x08), (0x1001, 0x46)] }

/-- One instruction for each branch: 16 bits long, another word, bit 15, `S`, `T`, a register field, and a defined instruction. -/
theorem witness_T32WordOutcomes :
    (StepReady .full narrow ∧ narrow.mem.fetchBytes narrow.pc.toNat 2 = halfBytes 0x4608) ∧
    Ready .full (t32 0xEA814002) .t32 0xEA814002 ∧ Ready .full (t32 0xEAC1C002) .t32 0xEAC1C002 ∧
    Ready .full (t32 0xEAD14002) .t32 0xEAD14002 ∧ Ready .full (t32 0xEAC14012) .t32 0xEAC14012 ∧
    Ready .full (t32 0xEAC10F02) .t32 0xEAC10F02 ∧ Ready .outsideOnly (t32 0xEAC14002) .t32 0xEAC14002 := by decide

theorem witness_T1UndefinedWordsFault :
    (Ready .full (t32 0xEAD14002) .t32 0xEAD14002 ∧ 0xEAD14002#32 &&& 0xFFE00000#32 = 0xEAC00000#32 ∧
      (0xEAD14002#32).getLsbD 20 = true ∧ (0xEAD14002#32).getLsbD 15 = false) ∧
    (Ready .full (t32 0xEAC14012) .t32 0xEAC14012 ∧ 0xEAC14012#32 &&& 0xFFE00000#32 = 0xEAC00000#32 ∧
      (0xEAC14012#32).getLsbD 4 = true ∧ (0xEAC14012#32).getLsbD 15 = false) := by decide

theorem witness_MisalignedPcIsRefused :
    ((bare .a32 0x1002).mark = none ∧ (bare .a32 0x1002).pc.toNat % 4 ≠ 0) ∧
    ((bare .a32 0x1001).mark = none ∧ (bare .a32 0x1001).pc.toNat % 4 ≠ 0) ∧
    ((bare .t32 0x1001).mark = none ∧ (bare .t32 0x1001).pc.toNat % 2 ≠ 0) ∧
    nextMeets .full (a32 0xE6810812) (fun _ => true) = true ∧ nextMeets .full (t32 0xEAC14002) (fun _ => true) = true := by decide

/-- The addresses where R18's clauses meet: the last admitted ones and the first refused ones. -/
theorem witness_PcAdvancesByFourOrIsRefused :
    nextMeets .full ((bare .a32 0xFFFFFFF8).withWord .a32 0xE6810812) (fun t => t.pc == 0xFFFFFFFC#32) = true ∧
    nextMeets .full ((bare .t32 0xFFFFFFFA).withWord .t32 0xEAC14002) (fun t => t.pc == 0xFFFFFFFE#32) = true ∧
    (pcAligned .a32 0xFFFFFFFC = true ∧ (0xFFFFFFFC#32).toNat + 4 > 2 ^ 32 - 1) ∧
    (pcAligned .t32 0xFFFFFFFC = true ∧ pcAligned .t32 0xFFFFFFFA = true) := by decide

theorem witness_ItStateRule :
    nextMeets .full (a32 0xE6810812) (fun t => t.iset == .a32) = true ∧
    nextMeets .full { t32 0xEAC14002 with itstate := 0b11101000#8 } (fun t => t.itstate == 0#8) = true ∧
    nextMeets .full { t32 0xEAC14002 with itstate := 0b11100001#8 } (fun t => t.itstate == 0b11100010#8) = true ∧
    (pcAligned .t32 0x1000 = true ∧ (0x1000#32).toNat + 4 ≤ 2 ^ 32 - 1 ∧
      (0b00010000#8).extractLsb' 0 4 = 0#4 ∧ (0b00010000#8).extractLsb' 4 4 ≠ 0#4) := by decide

theorem witness_ItSettingsAgreeOutsideBlocks :
    (t32 0xEAC14002).itstate = 0#8 ∧ nextMeets .outsideOnly (t32 0xEAC14002) (fun _ => true) = true := by decide

/-- Text that ends after `k` bytes of an instruction. -/
def cut (set : ISet) (w : Word) (k : Nat) : State :=
  { usual with iset := set, mem := usual.mem.load 0x1000 ((wordBytes set w).take k) }

theorem witness_FetchOutsideTextIsStuck :
    (StepReady .full (cut .a32 0xE6810812 0) ∧ ((cut .a32 0xE6810812 0).mem.fetchBytes 0x1000 4).length = 0) ∧
    (StepReady .full (cut .a32 0xE6810812 3) ∧ ((cut .a32 0xE6810812 3).mem.fetchBytes 0x1000 4).length = 3) ∧
    (StepReady .full (cut .t32 0xEAC14002 1) ∧ ((cut .t32 0xEAC14002 1).mem.fetchBytes 0x1000 4).length = 1) ∧
    (StepReady .full (cut .t32 0xEAC14002 2) ∧ ((cut .t32 0xEAC14002 2).mem.fetchBytes 0x1000 4).length = 2 ∧
      (cut .t32 0xEAC14002 2).mem.fetchBytes 0x1000 2 = halfBytes 0xEAC1 ∧ isWide 0xEAC1 = true) ∧
    (StepReady .full (cut .t32 0xEAC14002 3) ∧ ((cut .t32 0xEAC14002 3).mem.fetchBytes 0x1000 4).length = 3 ∧
      (cut .t32 0xEAC14002 3).mem.fetchBytes 0x1000 2 = halfBytes 0xEAC1) := by decide

theorem witness_OnlyUndefinedAndStuckFault :
    ((t32 0xEAD14002).mark = none ∧ faultOf (t32 0xEAD14002) = some (.undefinedInstruction 0x1000 0xEAD14002)) ∧
    ((cut .t32 0xEAC14002 3).mark = none ∧ faultOf (cut .t32 0xEAC14002 3) = some (.fetchOutsideText 0x1003)) := by decide

theorem witness_ConditionTable : SameFlags (a32 0xE6810812) (t32 0xEAC14002) := by decide

/-- The ends of the ranges of amounts and bits. -/
theorem witness_ShiftBits :
    (shift 0x00000001 .lsl 31 false).getLsbD 31 = true ∧ (shift 0x80000000 .asr 32 false).getLsbD 0 = true ∧
    (shift 0x40000000 .asr 1 false).getLsbD 29 = true ∧ (shift 0x80000000 .lsr 32 false).getLsbD 0 = false ∧
    (shift 0x80000000 .lsr 31 false).getLsbD 0 = true ∧ (shift 0 .rrx 1 true).getLsbD 31 = true := by decide

theorem witness_PkhbtA1Step :
    (Ready .full (a32 0xE6810812) .a32 0xE6810812 ∧ 0xE6810812#32 &&& 0x0FF00070#32 = 0x06800010#32 ∧
      (0xE6810812#32).extractLsb' 28 4 ≠ 15#4 ∧ (0xE6810812#32).extractLsb' 12 4 = fieldOf 0 ∧
      (0xE6810812#32).extractLsb' 16 4 = fieldOf 1 ∧ (0xE6810812#32).extractLsb' 0 4 = fieldOf 2) ∧
    (Ready .full (a32 0xE681F012) .a32 0xE681F012 ∧ 0xE681F012#32 &&& 0x0FF00070#32 = 0x06800010#32 ∧
      (0xE681F012#32).extractLsb' 12 4 = 15#4) := by decide

theorem witness_PkhtbA1Step :
    (Ready .full (a32 0xE6843055) .a32 0xE6843055 ∧ 0xE6843055#32 &&& 0x0FF00070#32 = 0x06800050#32 ∧
      (0xE6843055#32).extractLsb' 28 4 ≠ 15#4 ∧ (0xE6843055#32).extractLsb' 12 4 = fieldOf 3 ∧
      (0xE6843055#32).extractLsb' 16 4 = fieldOf 4 ∧ (0xE6843055#32).extractLsb' 0 4 = fieldOf 5) ∧
    (Ready .full (a32 0xE68F0052) .a32 0xE68F0052 ∧ 0xE68F0052#32 &&& 0x0FF00070#32 = 0x06800050#32 ∧
      (0xE68F0052#32).extractLsb' 16 4 = 15#4) := by decide

theorem witness_PkhbtT1Step :
    (Ready .full (t32 0xEACD1D4D) .t32 0xEACD1D4D ∧ 0xEACD1D4D#32 &&& 0xFFF08030#32 = 0xEAC00000#32 ∧
      (0xEACD1D4D#32).extractLsb' 8 4 = fieldOf 13 ∧ (0xEACD1D4D#32).extractLsb' 16 4 = fieldOf 13 ∧
      (0xEACD1D4D#32).extractLsb' 0 4 = fieldOf 13) ∧
    (Ready .full (t32 0xEAC1000F) .t32 0xEAC1000F ∧ 0xEAC1000F#32 &&& 0xFFF08030#32 = 0xEAC00000#32 ∧
      (0xEAC1000F#32).extractLsb' 0 4 = 15#4) := by decide

theorem witness_PkhtbT1Step :
    (Ready .full (t32 0xEACE1CED) .t32 0xEACE1CED ∧ 0xEACE1CED#32 &&& 0xFFF08030#32 = 0xEAC00020#32 ∧
      (0xEACE1CED#32).extractLsb' 8 4 = fieldOf 12 ∧ (0xEACE1CED#32).extractLsb' 16 4 = fieldOf 14 ∧
      (0xEACE1CED#32).extractLsb' 0 4 = fieldOf 13) ∧
    (Ready .full (t32 0xEAC10F22) .t32 0xEAC10F22 ∧ 0xEAC10F22#32 &&& 0xFFF08030#32 = 0xEAC00020#32 ∧
      (0xEAC10F22#32).extractLsb' 8 4 = 15#4) := by decide

theorem witness_RegisterFifteenIsRefused :
    ¬ RegsDefined 15 1 2 ∧ ¬ RegsDefined 0 15 2 ∧ ¬ RegsDefined 0 1 15 := by decide

theorem witness_ExactlyDefinedInstructionsComplete :
    ((Instr.pkhtbT1 14 14 0 14).wellFormed = true ∧ (Instr.pkhtbT1 14 14 0 14).defined = true) ∧
    ((Instr.pkhtbT1 14 15 0 14).wellFormed = true ∧ (Instr.pkhtbT1 14 15 0 14).defined = false) := by decide

/-- A passed condition and a next state, for shift fields 0 (on one source register), 15, 16 and 31, in each instruction set. -/
theorem witness_PkhbtClosedForms :
    ∀ imm5 : BitVec 5, imm5 = 0#5 ∨ imm5 = 15#5 ∨ imm5 = 16#5 ∨ imm5 = 31#5 → ∀ set : Fin 2,
      let iset : ISet := if set = 0 then .a32 else .t32
      execMeets (instrOf iset 14#4 false (fieldOf 1) (fieldOf 0) imm5 (fieldOf 1)) usual (fun _ => true) = true ∧
      conditionPassed (instrOf iset 14#4 false (fieldOf 1) (fieldOf 0) imm5 (fieldOf 1)) usual = true := by decide

/-- A passed condition and a next state, for shift fields 0 (32), 16, 17 and 31, in each instruction set. -/
theorem witness_PkhtbClosedForms :
    ∀ imm5 : BitVec 5, imm5 = 0#5 ∨ imm5 = 16#5 ∨ imm5 = 17#5 ∨ imm5 = 31#5 → ∀ set : Fin 2,
      let iset : ISet := if set = 0 then .a32 else .t32
      execMeets (instrOf iset 14#4 true (fieldOf 1) (fieldOf 0) imm5 (fieldOf 2)) usual (fun _ => true) = true ∧
      conditionPassed (instrOf iset 14#4 true (fieldOf 1) (fieldOf 0) imm5 (fieldOf 2)) usual = true := by decide

/-- `d = n`, for each mnemonic: the half that changes does change. -/
theorem witness_HalfWritesAreOneWrite :
    (packWriteHalves false 1 1 16 2 usual).reg 1 = 0x44442222#32 ∧
    (packWriteHalves true 1 1 16 2 usual).reg 1 = 0x11113333#32 := by decide

theorem witness_ConditionFailedOnlyMovesOn :
    ((Instr.pkhbtA1 0 1 0 16 2).defined = true ∧ conditionPassed (.pkhbtA1 0 1 0 16 2) usual = false) ∧
    ((Instr.pkhtbT1 1 0 16 2).defined = true ∧
      conditionPassed (.pkhtbT1 1 0 16 2) { usual with itstate := 0b00001000#8 } = false) := by decide

/-- Two states that agree in `x[2]` and in one half of `x[1]`. -/
theorem witness_ResultDependsOnSourcesAlone :
    (execMeets (.pkhbtA1 14 1 0 16 2) usual (fun _ => true) = true ∧
      execMeets (.pkhbtA1 14 1 0 16 2) (usual.setReg 1 0xFFFF2222) (fun _ => true) = true ∧
      conditionPassed (.pkhbtA1 14 1 0 16 2) usual = true ∧
      bottom (usual.reg 1) = bottom ((usual.setReg 1 0xFFFF2222).reg 1) ∧
      usual.reg 2 = (usual.setReg 1 0xFFFF2222).reg 2) ∧
    (execMeets (.pkhtbT1 1 0 16 2) usual (fun _ => true) = true ∧
      execMeets (.pkhtbT1 1 0 16 2) (usual.setReg 1 0x1111FFFF) (fun _ => true) = true ∧
      conditionPassed (.pkhtbT1 1 0 16 2) usual = true ∧
      top (usual.reg 1) = top ((usual.setReg 1 0x1111FFFF).reg 1)) ∧
    conditionPassed (.pkhtbA1 0 1 0 16 2) usual = false := by decide

theorem witness_CarryDoesNotReachTheResult :
    conditionPassed (.pkhtbA1 14 1 0 0 2) { usual with c := true } = conditionPassed (.pkhtbA1 14 1 0 0 2) usual ∧
    execMeets (.pkhtbA1 14 1 0 0 2) usual (fun _ => true) = true ∧
    execMeets (.pkhtbA1 14 1 0 0 2) { usual with c := true } (fun _ => true) = true := by decide

/-- A next state in A32, in T32 outside an IT block, and in T32 inside one. -/
theorem witness_PackHalfwordFrame :
    execMeets (instrOf .a32 14 false (fieldOf 1) (fieldOf 0) 16 (fieldOf 2)) usual (fun t => t.reg 1 == usual.reg 1) = true ∧
    (execMeets (instrOf .t32 14 true (fieldOf 1) (fieldOf 0) 16 (fieldOf 2)) usual (fun _ => true) = true ∧ usual.itstate = 0#8) ∧
    execMeets (instrOf .t32 14 true (fieldOf 1) (fieldOf 0) 16 (fieldOf 2)) { usual with itstate := 0b11101000#8 }
      (fun t => t.itstate == 0#8) = true := by decide

theorem witness_NoStepWritesAFlag :
    nextMeets .full { a32 0xE6810812 with n := true, c := true } (fun t => t.n && t.c) = true := by decide

theorem witness_InvariantKeptByEveryStep :
    ((a32 0xE6810812).Inv ∧ nextMeets .full (a32 0xE6810812) (fun _ => true) = true) ∧
    (launch.state.Inv ∧ nextMeets .full launch.state (fun _ => true) = true) := by decide

/-- The three premises of the promise met, and each of them missing. -/
theorem witness_TimingPromisePremises :
    timingPromise (instrOf .a32 14 false 1 0 16 2) { usual with dit := some true } = true ∧
    timingPromise (instrOf .a32 14 false 1 0 16 2) usual = false ∧
    timingPromise (instrOf .a32 14 false 1 0 16 2) { usual with dit := none } = false ∧
    timingPromise (instrOf .a32 0 false 1 0 16 2) { usual with dit := some true } = false ∧
    timingPromise (instrOf .t32 14 false 1 15 16 2) { usual with dit := some true } = false := by decide

/-- A faulted state, a refused state, and the steps that mark them. -/
theorem witness_MarksStay :
    ((advance .full (t32 0xEAD14002)).mark ≠ none ∧ (advance .full (a32 0xF6810812)).mark ≠ none) ∧
    faultOf (t32 0xEAD14002) = some (.undefinedInstruction 0x1000 0xEAD14002) ∧
    refusalOf (a32 0xF6810812) = some (.wordNotInSource 0x1000 0xF6810812) := by decide

/-- A run of one step, and a run that is over at its start. -/
theorem witness_RunEndsAtTheEndAddress :
    (run .full 0x8004 1 launch.state).observed.isSome = true ∧ (run .full 0x8000 1 launch.state).observed.isSome = true := by decide

theorem witness_FinishedRunIsAStraightLine :
    ∃ t, run .full 0x8004 1 launch.state = .finished t := ⟨_, rfl⟩

theorem witness_AssembleOfDisassemble :
    (Instr.pkhbtA1 0 8 7 3 9).defined = true ∧ (Instr.pkhtbT1 14 12 0 13).defined = true := by decide

/-- Omitted, and the ends of the range: 1, 31 and 32. -/
theorem witness_PkhbtShiftField :
    lineFields false ⟨.pkhbt, none, none, none, 1, 2, none⟩ = .fields false 1 0 2 ∧
    lineFields false ⟨.pkhbt, none, none, none, 1, 2, some (.lsl 1)⟩ = .fields false 1 1 2 ∧
    lineFields false ⟨.pkhbt, none, none, none, 1, 2, some (.lsl 31)⟩ = .fields false 1 31 2 ∧
    lineFields false ⟨.pkhbt, none, none, none, 1, 2, some (.lsl 32)⟩ = .error .shiftRange := by decide

/-- Omitted, and the ends of the range: 1, 31, 32 and 33. -/
theorem witness_PkhtbShiftField :
    lineFields false ⟨.pkhtb, none, none, none, 1, 2, none⟩ = .fields false 2 0 1 ∧
    lineFields false ⟨.pkhtb, none, none, none, 1, 2, some (.asr 1)⟩ = .fields true 1 1 2 ∧
    lineFields false ⟨.pkhtb, none, none, none, 1, 2, some (.asr 31)⟩ = .fields true 1 31 2 ∧
    lineFields false ⟨.pkhtb, none, none, none, 1, 2, some (.asr 32)⟩ = .fields true 1 0 2 ∧
    lineFields false ⟨.pkhtb, none, none, none, 1, 2, some (.asr 33)⟩ = .error .shiftRange := by decide

/-- Section 3.1's check of A7's values. -/
theorem witness_PseudoInstruction :
    assemble ⟨.a32, none, false⟩ ⟨.pkhtb, none, none, some 0, 1, 2, none⟩ = .ok (.pkhbtA1 14 2 0 0 1) ∧
    execMeets (.pkhbtA1 14 2 0 0 1) usual (fun t => t.reg 0 == 0x11114444#32) = true ∧
    conditionPassed (.pkhbtA1 14 2 0 0 1) usual = true := by decide

theorem witness_DisassemblyForms :
    disassemble none (.pkhtbA1 14 1 0 0 2) = some ⟨.pkhtb, none, none, some 0, 1, 2, some (.asr 32)⟩ ∧
    disassemble (some .eq) (.pkhbtT1 1 0 0 2) = some ⟨.pkhbt, some .eq, none, some 0, 1, 2, none⟩ := by decide

theorem witness_ConditionAndQualifier :
    assemble ⟨.a32, none, false⟩ ⟨.pkhbt, some .eq, none, some 7, 8, 9, some (.lsl 3)⟩ = .ok (.pkhbtA1 0 8 7 3 9) ∧
    assemble ⟨.t32, some .eq, false⟩ ⟨.pkhbt, some .eq, none, some 7, 8, 9, some (.lsl 3)⟩ = .ok (.pkhbtT1 8 7 3 9) ∧
    assemble ⟨.t32, none, false⟩ ⟨.pkhbt, some .eq, none, some 7, 8, 9, none⟩ = .error .condition ∧
    assemble ⟨.a32, none, false⟩ ⟨.pkhbt, none, some .narrow, some 7, 8, 9, none⟩ = .error .narrow := by decide

end Sys2Proof.Tests
end

section
/-! PROOFS. The obligations of 10_state.md: what an instruction reads and writes (R16), and the flags (R21).
First what `instrOf` is, in each of its four forms, to the functions that read an instruction. -/

namespace Sys2Proof.Machine

open Sys2Proof

/-- The condition under which `instrOf set cond …` runs (40_pack_halfword.md R64): its own `cond` field in A32, `cond_T32` in T32. -/
def packCond : ISet → BitVec 4 → State → BitVec 4
  | .a32, cond, _ => cond
  | .t32, _, s => condT32 s.itstate

section

variable (set : ISet) (cond : BitVec 4) (tbform : Bool)

@[simp] theorem exec_instrOf (d n : Reg) (imm5 : BitVec 5) (m : Reg) (s : State) :
    exec (instrOf set cond tbform (fieldOf n) (fieldOf d) imm5 (fieldOf m)) s =
      .next (packExec set (packCond set cond s) tbform d n imm5 m s) := by
  cases set <;> cases tbform <;> exact packChecked_fieldOf ..

@[simp] theorem conditionPassed_instrOf (rn rd : RegField) (imm5 : BitVec 5) (rm : RegField) (s : State) :
    conditionPassed (instrOf set cond tbform rn rd imm5 rm) s = condHolds (packCond set cond s) s := by
  cases set <;> cases tbform <;> rfl

@[simp] theorem regFields_instrOf (rn rd : RegField) (imm5 : BitVec 5) (rm : RegField) :
    regFields (instrOf set cond tbform rn rd imm5 rm) = some (rd, rn, rm) := by
  cases set <;> cases tbform <;> rfl

/-- The shifted operand reads register `m` alone: the carry does not reach it (10_state.md R20). -/
theorem operand2_congr (imm5 : BitVec 5) {m : Reg} {s s' : State} (h : s.reg m = s'.reg m) :
    operand2 tbform imm5 m s = operand2 tbform imm5 m s' := by
  cases tbform
  · rw [operand2_bt, operand2_bt, h]
  · rw [operand2_tb, operand2_tb, h]

/-- The packed value takes one half of `x[n]`: the bottom for PKHBT, the top for PKHTB (R16). -/
theorem packed_congr {a a' : Word} (op2 : Word) (hbt : tbform = false → bottom a = bottom a')
    (htb : tbform = true → top a = top a') : packed tbform a op2 = packed tbform a' op2 := by
  cases tbform
  · rw [packed_bt, packed_bt, hbt rfl]
  · rw [packed_tb, packed_tb, htb rfl]

section Footprint

variable {set cond tbform} {d n : Reg} {imm5 : BitVec 5} {m : Reg} {s : State}

theorem reg_packExec_dest (h : condHolds cond s = true) :
    (packExec set cond tbform d n imm5 m s).reg d = packed tbform (s.reg n) (operand2 tbform imm5 m s) := by
  simp [reg_packExec, h]

theorem reg_packExec_other {r : Reg} (h : r ≠ d) : (packExec set cond tbform d n imm5 m s).reg r = s.reg r := by
  simp [reg_packExec, h]

theorem packExec_regs_of_failed (h : condHolds cond s = false) : (packExec set cond tbform d n imm5 m s).regs = s.regs :=
  State.regs_ext fun r => by simp [reg_packExec, h]

end Footprint

end

/-- Settles O35: `exec` is `packExec`, whose value at `x[d]` is `packed` of the half of `x[n]` and of the operand from `x[m]`. -/
theorem resultDependsOnSourcesAlone : Obligations.ResultDependsOnSourcesAlone := by
  rintro set cond tbform d n m imm5 i s s' t t' rfl ht ht'
  obtain rfl := Host.Outcome.next.inj ((exec_instrOf ..).symm.trans ht)
  obtain rfl := Host.Outcome.next.inj ((exec_instrOf ..).symm.trans ht')
  simp only [conditionPassed_instrOf, regsRead, regsWritten, regFields_instrOf, regOf_fieldOf]
  refine ⟨fun hs => ?_, fun hs => ?_, fun hs hs' hm hbt htb => ?_⟩
  · exact ⟨if_pos hs, if_pos hs, fun r => reg_packExec_other⟩
  · simp [hs, packExec_regs_of_failed hs]
  · rw [reg_packExec_dest hs, reg_packExec_dest hs', operand2_congr tbform imm5 hm, packed_congr tbform _ hbt htb]

/-- Settles O38: a next state is `packExec`'s, which keeps the four flags. -/
theorem noStepWritesAFlag : Obligations.NoStepWritesAFlag := by
  intro p s t h
  obtain ⟨-, -, set, cond, tbform, d, n, imm5, m, rfl⟩ := stepWith_next_cases h
  exact ⟨packExec_n .., packExec_z .., packExec_c .., packExec_v ..⟩

end Sys2Proof.Machine
end

section
/-! PROOFS. The obligations of 30_encoding.md: the UNDEFINED T1 words (R46) and the shift field of an assembler line (R58, R59).
First what a ready step does with a word that has the T1 bits 31:21, then what the two UNDEFINED rows decode to. -/

namespace Sys2Proof.Machine

open Sys2Proof

/-- A ready T32 step on a word with the T1 bits 31:21 runs what the word decodes to. -/
theorem stepWith_of_decodeT32Word {p : ItSupport} {s : State} {w : Word} {i : Instr} (hr : StepReady p s) (hs : s.iset = .t32)
    (hw : TextHolds s w) (ht1 : w &&& 0xFFE00000#32 = 0xEAC00000#32) (hi : decodeT32Word w = some i) :
    stepWith p s = exec i s := by
  have hd : decode s.iset (wordBytes s.iset w) = .instr i [] := by
    have h := decode_wordBytes_t32 [] (isWide_of_t1 ht1)
    rw [List.append_nil] at h
    simp [hs, h, decodedOf, decodeWord, hi]
  obtain ⟨hmark, hcheck⟩ := hr
  rw [stepWith_of_ready hmark hcheck, fetchDecode_of_bytes hw, hd]

section UndefinedRows

variable {w : Word}

theorem encodeWord_undefinedT1S_of_fixed (ht1 : w &&& 0xFFE00000#32 = 0xEAC00000#32) (h20 : w.getLsbD 20 = true)
    (h15 : w.getLsbD 15 = false) : encodeWord (.undefinedT1S (w.extractLsb' 16 4) (w.extractLsb' 0 15)) = w := by
  apply BitVec.eq_of_getLsbD_eq
  intro i hi
  have hb := congrArg (BitVec.getLsbD · i) ht1
  simp only [BitVec.getLsbD_and, encodeWord, BitVec.getLsbD_append, BitVec.getLsbD_extractLsb'] at hb ⊢
  interval_cases i <;> simp_all

theorem encodeWord_undefinedT1T_of_fixed (ht1 : w &&& 0xFFE00000#32 = 0xEAC00000#32) (h20 : w.getLsbD 20 = false)
    (h15 : w.getLsbD 15 = false) (h4 : w.getLsbD 4 = true) :
    encodeWord (.undefinedT1T (w.extractLsb' 16 4) (w.extractLsb' 5 10) (w.extractLsb' 0 4)) = w := by
  apply BitVec.eq_of_getLsbD_eq
  intro i hi
  have hb := congrArg (BitVec.getLsbD · i) ht1
  simp only [BitVec.getLsbD_and, encodeWord, BitVec.getLsbD_append, BitVec.getLsbD_extractLsb'] at hb ⊢
  interval_cases i <;> simp_all

/-- A word of R46 decodes to an instruction that raises `UndefinedInstruction` with that word: the `S` row when bit 20 is set, else the `T` row. -/
theorem decodeT32Word_undefined (ht1 : w &&& 0xFFE00000#32 = 0xEAC00000#32) (hst : w.getLsbD 20 = true ∨ w.getLsbD 4 = true)
    (h15 : w.getLsbD 15 = false) : ∃ i, decodeT32Word w = some i ∧ ∀ s, exec i s = raiseUndefined w s := by
  cases h20 : w.getLsbD 20 with
  | true =>
    refine ⟨.undefinedT1S (w.extractLsb' 16 4) (w.extractLsb' 0 15), by simp [-BitVec.getLsbD_eq_getElem, decodeT32Word, ht1, h15, h20], fun s => ?_⟩
    exact congrArg (raiseUndefined · s) (encodeWord_undefinedT1S_of_fixed ht1 h20 h15)
  | false =>
    have h4 : w.getLsbD 4 = true := hst.resolve_left (Bool.eq_false_iff.mp h20)
    refine ⟨.undefinedT1T (w.extractLsb' 16 4) (w.extractLsb' 5 10) (w.extractLsb' 0 4),
      by simp [-BitVec.getLsbD_eq_getElem, decodeT32Word, ht1, h15, h20, h4], fun s => ?_⟩
    exact congrArg (raiseUndefined · s) (encodeWord_undefinedT1T_of_fixed ht1 h20 h15 h4)

end UndefinedRows

/-- Settles O11: the word decodes to an instruction of one of the two UNDEFINED rows, and the ready step runs it. -/
theorem t1UndefinedWordsFault : Obligations.T1UndefinedWordsFault := by
  intro p s w hr hs hw ht1 hst h15
  obtain ⟨i, hi, hexec⟩ := decodeT32Word_undefined ht1 hst h15
  rw [stepWith_of_decodeT32Word hr hs hw ht1 hi, hexec, raiseUndefined]

section ShiftField

variable {l : Line} (zero : Bool)

theorem lineFields_pkhbt_none (hm : l.mnemonic = .pkhbt) (hs : l.shift = none) :
    lineFields zero l = .fields false l.rn 0#5 l.rm := by
  simp [lineFields, hm, hs]

theorem lineFields_pkhtb_none (hm : l.mnemonic = .pkhtb) (hs : l.shift = none) :
    lineFields zero l = .fields false l.rm 0#5 l.rn := by
  simp [lineFields, pseudoFields, hm, hs]

/-- `LSL #k` of a PKHBT, `k` not 0 (R58). -/
theorem lineFields_pkhbt_lsl {k : Nat} (hm : l.mnemonic = .pkhbt) (hs : l.shift = some (.lsl k)) (hk : k ≠ 0) :
    lineFields zero l = if k ≤ 31 then .fields false l.rn (BitVec.ofNat 5 k) l.rm else .error .shiftRange := by
  simp [lineFields, hm, hs, hk]

/-- `ASR #k` of a PKHTB, `k` not 0 (R59): `BitVec.ofNat 5 32` is the zero field that stands for 32. -/
theorem lineFields_pkhtb_asr {k : Nat} (hm : l.mnemonic = .pkhtb) (hs : l.shift = some (.asr k)) (hk : k ≠ 0) :
    lineFields zero l = if k ≤ 32 then .fields true l.rn (BitVec.ofNat 5 k) l.rm else .error .shiftRange := by
  obtain rfl | h32 := eq_or_ne k 32
  · simp [lineFields, hm, hs]
  · have hle : k ≤ 31 ↔ k ≤ 32 := by omega
    simp [lineFields, hm, hs, hk, h32, hle]

end ShiftField

/-- Settles O47: the written `k` is the field while it fits in five bits. -/
theorem pkhbtShiftField : Obligations.PkhbtShiftField := by
  intro zero l hm
  refine ⟨lineFields_pkhbt_none zero hm, fun k hs h1 h31 => ⟨BitVec.ofNat 5 k, ?_, ?_⟩, fun k hs h32 => ?_⟩
  · exact Nat.mod_eq_of_lt (by omega)
  · rw [lineFields_pkhbt_lsl zero hm hs (by omega), if_pos h31]
  · rw [lineFields_pkhbt_lsl zero hm hs (by omega), if_neg (by omega)]

/-- Settles O48: the field is `k` modulo 32 up to 32, so `k` itself below 32 and 0 at 32. -/
theorem pkhtbShiftField : Obligations.PkhtbShiftField := by
  intro zero l hm
  refine ⟨lineFields_pkhtb_none zero hm, fun k hs h1 h31 => ⟨BitVec.ofNat 5 k, ?_, ?_⟩, fun hs => ?_, fun k hs h33 => ?_⟩
  · exact Nat.mod_eq_of_lt (by omega)
  · rw [lineFields_pkhtb_asr zero hm hs (by omega), if_pos (by omega)]
  · exact lineFields_pkhtb_asr zero hm hs (by decide)
  · rw [lineFields_pkhtb_asr zero hm hs (by omega), if_neg (by omega)]

end Sys2Proof.Machine
end

section
/-! PROOFS. The obligations of 40_pack_halfword.md R66 to R69: the step of each Pack Halfword from its word at the pc.
A word of a Pack Halfword row decodes to `instrOf` of its own fields and is that instruction's encoding; what `exec` makes of `instrOf` is said once for all four rows. -/

namespace Sys2Proof.Machine

open Sys2Proof

/-! ### From a row's mask to the decoder's checks -/

/-- What a word has under a mask it has under every part of that mask. -/
theorem and_eq_of_submask {w mask pattern mask' pattern' : Word} (h : w &&& mask = pattern) (hm : mask &&& mask' = mask')
    (hp : pattern &&& mask' = pattern') : w &&& mask' = pattern' := by
  rw [← hp, ← h, BitVec.and_assoc, hm]

/-- A bit under a mask is the pattern's. -/
theorem getLsbD_of_and_eq {w mask pattern : Word} {i : Nat} (h : w &&& mask = pattern) (hi : mask.getLsbD i = true) :
    w.getLsbD i = pattern.getLsbD i := by
  rw [← h, BitVec.getLsbD_and, hi, Bool.and_true]

section Word

variable {w : Word}

/-- An A1 word decodes to the Pack Halfword of its fields, bit 6 choosing the mnemonic (30_encoding.md R39, R41). -/
theorem decodeA32Word_of_fixed (hfix : w &&& 0x0FF00030#32 = 0x06800010#32) (hcond : w.extractLsb' 28 4 ≠ 15#4) :
    decodeA32Word w = some (instrOf .a32 (w.extractLsb' 28 4) (w.getLsbD 6) (w.extractLsb' 16 4) (w.extractLsb' 12 4)
      (w.extractLsb' 7 5) (w.extractLsb' 0 4)) := by
  cases h6 : w.getLsbD 6 <;> simp only [decodeA32Word, hfix, hcond, h6, instrOf, if_true, if_false, Bool.false_eq_true]

/-- A T1 word decodes to the Pack Halfword of its fields, bit 5 choosing the mnemonic (R45, R48, R49); T1 has no `cond` field, and any `cond` serves. -/
theorem decodeT32Word_of_fixed (cond : BitVec 4) (hfix : w &&& 0xFFF08010#32 = 0xEAC00000#32) :
    decodeT32Word w = some (instrOf .t32 cond (w.getLsbD 5) (w.extractLsb' 16 4) (w.extractLsb' 8 4)
      (w.extractLsb' 12 3 ++ w.extractLsb' 6 2) (w.extractLsb' 0 4)) := by
  have ht1 : w &&& 0xFFE00000#32 = 0xEAC00000#32 := and_eq_of_submask hfix (by decide) (by decide)
  have h15 : w.getLsbD 15 = false := getLsbD_of_and_eq hfix (by decide)
  have h20 : w.getLsbD 20 = false := getLsbD_of_and_eq hfix (by decide)
  have h4 : w.getLsbD 4 = false := getLsbD_of_and_eq hfix (by decide)
  cases h5 : w.getLsbD 5 <;>
    simp only [decodeT32Word, ht1, h15, h20, h4, h5, instrOf, if_true, if_false, Bool.false_eq_true]

end Word

section

variable (cond : BitVec 4) (tbform : Bool) (rn rd : RegField) (imm5 : BitVec 5) (rm : RegField)

theorem encodeWord_instrOf_a32 :
    encodeWord (instrOf .a32 cond tbform rn rd imm5 rm) = encodeA1 cond rn rd imm5 (BitVec.ofBool tbform) rm := by
  cases tbform <;> rfl

theorem encodeWord_instrOf_t32 :
    encodeWord (instrOf .t32 cond tbform rn rd imm5 rm) = encodeT1 rn rd imm5 (BitVec.ofBool tbform) rm := by
  cases tbform <;> rfl

end

/-- A field of one bit is that bit. -/
theorem ofBool_getLsbD_eq_extractLsb' (w : Word) (i : Nat) : BitVec.ofBool (w.getLsbD i) = w.extractLsb' i 1 := by
  apply BitVec.eq_of_getLsbD_eq
  intro j hj
  obtain rfl : j = 0 := by omega
  simp

/-! ### What a Pack Halfword does, from its fields -/

section Exec

variable (set : ISet) (cond : BitVec 4) (tbform : Bool)

/-- A Pack Halfword with a field of 15 is refused in either instruction set, recording its own word (R43, R50). -/
theorem exec_instrOf_of_not_regsDefined {rd rn rm : RegField} (imm5 : BitVec 5) (s : State) (h : ¬ RegsDefined rd rn rm) :
    exec (instrOf set cond tbform rn rd imm5 rm) s =
      .refused (.unpredictableR15 s.pc (encodeWord (instrOf set cond tbform rn rd imm5 rm))) := by
  cases set <;> cases tbform <;> exact packChecked_fifteen h

variable (d n : Reg) (imm5 : BitVec 5) (m : Reg) (s : State)

/-- The state PKHBT completes in (40_pack_halfword.md R63). -/
theorem packExec_bt : packExec set cond false d n imm5 m s =
    finish set (if condHolds cond s then s.setReg d (top (lsl32 (s.reg m) imm5.toNat) ++ bottom (s.reg n)) else s) := by
  simp only [packExec, packWrite, operand2_bt, packed_bt]

/-- The state PKHTB completes in (R63). -/
theorem packExec_tb : packExec set cond true d n imm5 m s =
    finish set (if condHolds cond s then s.setReg d (top (s.reg n) ++ bottom (asr32 (s.reg m) (amountOr32 imm5))) else s) := by
  simp only [packExec, packWrite, operand2_tb, packed_tb]

end Exec

/-! ### The step -/

section Step

variable {p : ItSupport} {s : State} {w : Word}

/-- A ready A32 step runs what its word decodes to. -/
theorem stepWith_of_decodeA32Word {i : Instr} (hr : StepReady p s) (hs : s.iset = .a32) (hw : TextHolds s w)
    (hi : decodeA32Word w = some i) : stepWith p s = exec i s := by
  have hd : decode s.iset (wordBytes s.iset w) = .instr i [] := by
    have h := decode_wordBytes_a32 w []
    rw [List.append_nil] at h
    simp [hs, h, decodedOf, decodeWord, hi]
  obtain ⟨hmark, hcheck⟩ := hr
  rw [stepWith_of_ready hmark hcheck, fetchDecode_of_bytes hw, hd]

/-- A step that runs a Pack Halfword, whose word is `w`, refuses a field of 15 and completes on registers 0 to 14. -/
theorem stepWith_of_exec_instrOf {set : ISet} {cond : BitVec 4} {tbform : Bool} {rn rd : RegField} {imm5 : BitVec 5} {rm : RegField}
    (hstep : stepWith p s = exec (instrOf set cond tbform rn rd imm5 rm) s)
    (henc : encodeWord (instrOf set cond tbform rn rd imm5 rm) = w) :
    (¬ RegsDefined rd rn rm → stepWith p s = .refused (.unpredictableR15 s.pc w)) ∧
    ∀ d n m : Reg, rd = fieldOf d → rn = fieldOf n → rm = fieldOf m →
      stepWith p s = .next (packExec set (packCond set cond s) tbform d n imm5 m s) := by
  constructor
  · intro h15
    rw [hstep, exec_instrOf_of_not_regsDefined set cond tbform imm5 s h15, henc]
  · rintro d n m rfl rfl rfl
    rw [hstep, exec_instrOf]

/-- The step of an A1 word: both mnemonics, chosen by bit 6 (R66, R67). -/
theorem stepWith_of_a1 (hr : StepReady p s) (hs : s.iset = .a32) (hw : TextHolds s w)
    (hfix : w &&& 0x0FF00030#32 = 0x06800010#32) (hcond : w.extractLsb' 28 4 ≠ 15#4) :
    (¬ RegsDefined (w.extractLsb' 12 4) (w.extractLsb' 16 4) (w.extractLsb' 0 4) →
      stepWith p s = .refused (.unpredictableR15 s.pc w)) ∧
    ∀ d n m : Reg, w.extractLsb' 12 4 = fieldOf d → w.extractLsb' 16 4 = fieldOf n → w.extractLsb' 0 4 = fieldOf m →
      stepWith p s = .next (packExec .a32 (w.extractLsb' 28 4) (w.getLsbD 6) d n (w.extractLsb' 7 5) m s) := by
  refine stepWith_of_exec_instrOf (cond := w.extractLsb' 28 4) (stepWith_of_decodeA32Word hr hs hw (decodeA32Word_of_fixed hfix hcond)) ?_
  rw [encodeWord_instrOf_a32, ofBool_getLsbD_eq_extractLsb', encodeA1_of_fixed hfix]

/-- The step of a T1 word: both mnemonics, chosen by bit 5, under `cond_T32` (R68, R69). -/
theorem stepWith_of_t1 (hr : StepReady p s) (hs : s.iset = .t32) (hw : TextHolds s w)
    (hfix : w &&& 0xFFF08010#32 = 0xEAC00000#32) :
    (¬ RegsDefined (w.extractLsb' 8 4) (w.extractLsb' 16 4) (w.extractLsb' 0 4) →
      stepWith p s = .refused (.unpredictableR15 s.pc w)) ∧
    ∀ d n m : Reg, w.extractLsb' 8 4 = fieldOf d → w.extractLsb' 16 4 = fieldOf n → w.extractLsb' 0 4 = fieldOf m →
      stepWith p s = .next
        (packExec .t32 (condT32 s.itstate) (w.getLsbD 5) d n (w.extractLsb' 12 3 ++ w.extractLsb' 6 2) m s) := by
  have ht1 : w &&& 0xFFE00000#32 = 0xEAC00000#32 := and_eq_of_submask hfix (by decide) (by decide)
  refine stepWith_of_exec_instrOf (stepWith_of_decodeT32Word hr hs hw ht1 (decodeT32Word_of_fixed (condT32 s.itstate) hfix)) ?_
  rw [encodeWord_instrOf_t32, ofBool_getLsbD_eq_extractLsb', encodeT1_of_fixed hfix]

end Step

/-- Settles O24: the A1 step with bit 6 clear. -/
theorem pkhbtA1Step : Obligations.PkhbtA1Step := by
  intro p s w hr hs hw hrow hcond
  have h6 : w.getLsbD 6 = false := getLsbD_of_and_eq hrow (by decide)
  have h := stepWith_of_a1 hr hs hw (and_eq_of_submask hrow (by decide) (by decide)) hcond
  simpa only [h6, packExec_bt, finish] using h

/-- Settles O25: the A1 step with bit 6 set. -/
theorem pkhtbA1Step : Obligations.PkhtbA1Step := by
  intro p s w hr hs hw hrow hcond
  have h6 : w.getLsbD 6 = true := getLsbD_of_and_eq hrow (by decide)
  have h := stepWith_of_a1 hr hs hw (and_eq_of_submask hrow (by decide) (by decide)) hcond
  simpa only [h6, packExec_tb, finish, amountOr32] using h

/-- Settles O26: the T1 step with bit 5 clear. -/
theorem pkhbtT1Step : Obligations.PkhbtT1Step := by
  intro p s w hr hs hw hrow
  have h5 : w.getLsbD 5 = false := getLsbD_of_and_eq hrow (by decide)
  have h := stepWith_of_t1 hr hs hw (and_eq_of_submask hrow (by decide) (by decide))
  simpa only [h5, packExec_bt, finish, condT32] using h

/-- Settles O27: the T1 step with bit 5 set. -/
theorem pkhtbT1Step : Obligations.PkhtbT1Step := by
  intro p s w hr hs hw hrow
  have h5 : w.getLsbD 5 = true := getLsbD_of_and_eq hrow (by decide)
  have h := stepWith_of_t1 hr hs hw (and_eq_of_submask hrow (by decide) (by decide))
  simpa only [h5, packExec_tb, finish, condT32, amountOr32] using h

end Sys2Proof.Machine
end

section
/-! PROOFS. The obligations of 60_exceptions.md R78: the refusals that come before the word (alignment, wrap, IT block), and the pc and `ITSTATE` a step that passes them leaves.
Each refusal is one branch of `stepCheck`, in R78's order; every step that answers a next state is a `packExec` of the current instruction set. -/

namespace Sys2Proof.Machine

open Sys2Proof

/-! ### The checks, in numbers -/

theorem pcAligned_a32 (pc : Word) : pcAligned .a32 pc = true ↔ pc.toNat % 4 = 0 := by
  simp [pcAligned, ← BitVec.toNat_inj]

theorem pcAligned_t32 (pc : Word) : pcAligned .t32 pc = true ↔ pc.toNat % 2 = 0 := by
  simp [pcAligned, ← BitVec.toNat_inj]

theorem pcWraps_eq_true (pc : Word) : pcWraps pc = true ↔ pc.toNat + 4 > 2 ^ 32 - 1 := by
  simp [pcWraps, Config.ilenBytes, Config.addrLimit]

theorem pcWraps_eq_false (pc : Word) : pcWraps pc = false ↔ pc.toNat + 4 ≤ 2 ^ 32 - 1 := by
  rw [← Bool.not_eq_true, pcWraps_eq_true, Nat.not_lt]

/-- `P_IT` says which `ITSTATE` a T32 step is refused for (10_state.md R24). -/
theorem itRefused_eq_true (p : ItSupport) (it : BitVec 8) :
    itRefused p it = true ↔ p = .outsideOnly ∧ it ≠ 0#8 ∨ p = .full ∧ it.extractLsb' 0 4 = 0#4 ∧ it.extractLsb' 4 4 ≠ 0#4 := by
  cases p <;> simp [itRefused, itMalformed]

/-! ### The refusals, in their order -/

section Check

variable {p : ItSupport} {s : State}

theorem stepCheck_of_misaligned (ha : pcAligned s.iset s.pc ≠ true) : stepCheck p s = some (.pcMisaligned s.pc) := by
  simp [stepCheck, ha]

theorem stepCheck_of_wraps (ha : pcAligned s.iset s.pc = true) (hw : pcWraps s.pc = true) :
    stepCheck p s = some (.pcWrap s.pc) := by
  simp [stepCheck, ha, hw]

theorem stepCheck_of_itRefused (ha : pcAligned s.iset s.pc = true) (hw : pcWraps s.pc = false) (hs : s.iset = .t32)
    (hit : itRefused p s.itstate = true) : stepCheck p s = some (.itBlock s.pc) := by
  rw [hs] at ha
  simp [stepCheck, hs, ha, hw, hit]

end Check

/-! ### What a step leaves in the pc and in `ITSTATE` -/

/-- Each decoder gives instructions of its own set only. -/
theorem decodeWord_iset {set : ISet} {w : Word} {i : Instr} (h : decodeWord set w = some i) : i.iset = set := by
  cases set with
  | a32 =>
    simp only [decodeWord, decodeA32Word] at h
    split_ifs at h <;> cases h <;> rfl
  | t32 =>
    simp only [decodeWord, decodeT32Word] at h
    split_ifs at h <;> cases h <;> rfl

section Next

variable {p : ItSupport} {s t : State}

/-- A next state is `packExec`'s, in the instruction set of the state before. -/
theorem stepWith_next_packExec (h : stepWith p s = .next t) :
    ∃ (cond : BitVec 4) (tbform : Bool) (d n : Reg) (imm5 : BitVec 5) (m : Reg), t = packExec s.iset cond tbform d n imm5 m s := by
  obtain ⟨_, _, i, hf, he⟩ := stepWith_next.mp h
  obtain ⟨w, hw⟩ := fetchDecode_iset hf
  obtain ⟨cond, tbform, d, n, imm5, m, ht, _⟩ := exec_next he
  exact ⟨cond, tbform, d, n, imm5, m, decodeWord_iset hw ▸ ht⟩

/-- A step starts at an aligned pc (20_memory.md R32). -/
theorem pcAligned_of_stepWith_next (h : stepWith p s = .next t) : pcAligned s.iset s.pc = true := by
  obtain ⟨_, hc, _⟩ := stepWith_next.mp h
  exact (stepCheck_eq_none.mp hc).1

/-- The wrap check makes the addition of R18 exact. -/
theorem stepWith_next_pc (h : stepWith p s = .next t) : t.pc.toNat = s.pc.toNat + 4 := by
  obtain ⟨_, hc, set, cond, tbform, d, n, imm5, m, rfl⟩ := stepWith_next_cases h
  obtain ⟨_, hw, _⟩ := stepCheck_eq_none.mp hc
  have hlt : s.pc.toNat + 4 ≤ 2 ^ 32 - 1 := (pcWraps_eq_false s.pc).mp hw
  rw [packExec_pc]
  bv_omega

theorem stepWith_next_itstate_a32 (h : stepWith p s = .next t) (hs : s.iset = .a32) : t.itstate = s.itstate := by
  obtain ⟨cond, tbform, d, n, imm5, m, rfl⟩ := stepWith_next_packExec h
  simp [hs]

/-- Outside an IT block too: `itNext` keeps zero. -/
theorem stepWith_next_itstate_t32 (h : stepWith p s = .next t) (hs : s.iset = .t32) : t.itstate = itNext s.itstate := by
  obtain ⟨cond, tbform, d, n, imm5, m, rfl⟩ := stepWith_next_packExec h
  by_cases hz : s.itstate = 0#8
  · simp [hz]
  · simp [hs, hz]

end Next

/-- Settles O12: misalignment is `stepCheck`'s first branch, and adding 4 keeps the alignment of either set. -/
theorem misalignedPcIsRefused : Obligations.MisalignedPcIsRefused := by
  constructor
  · rintro p s hm (⟨hs, hpc⟩ | ⟨hs, hpc⟩)
    · exact stepWith_of_check hm (stepCheck_of_misaligned (by rwa [hs, ne_eq, pcAligned_a32]))
    · exact stepWith_of_check hm (stepCheck_of_misaligned (by rwa [hs, ne_eq, pcAligned_t32]))
  · intro p s t h
    have ha := pcAligned_of_stepWith_next h
    have hpc := stepWith_next_pc h
    constructor
    · intro hs
      rw [hs, pcAligned_a32] at ha
      omega
    · intro hs
      rw [hs, pcAligned_t32] at ha
      omega

/-- Settles O13: the step that passes the wrap check adds 4 exactly, and the aligned addresses that pass it end at R18's. -/
theorem pcAdvancesByFourOrIsRefused : Obligations.PcAdvancesByFourOrIsRefused := by
  refine ⟨fun p s t => stepWith_next_pc, ?_, ?_⟩
  · intro p s hm ha hw
    exact stepWith_of_check hm (stepCheck_of_wraps ha ((pcWraps_eq_true s.pc).mpr hw))
  · intro set pc ha
    rw [pcWraps_eq_false]
    cases set with
    | a32 =>
      rw [pcAligned_a32] at ha
      change pc.toNat + 4 ≤ 2 ^ 32 - 1 ↔ pc.toNat ≤ 0xFFFFFFF8
      omega
    | t32 =>
      rw [pcAligned_t32] at ha
      change pc.toNat + 4 ≤ 2 ^ 32 - 1 ↔ pc.toNat ≤ 0xFFFFFFFA
      omega

/-- Settles O14: a T32 step leaves `itNext`, an A32 step leaves `ITSTATE`, and the IT block is `stepCheck`'s last branch. -/
theorem itStateRule : Obligations.ItStateRule := by
  constructor
  · intro p s t h
    exact ⟨stepWith_next_itstate_a32 h, stepWith_next_itstate_t32 h⟩
  · intro p s hm hs ha hw hit
    rw [← hs] at ha
    exact stepWith_of_check hm
      (stepCheck_of_itRefused ha ((pcWraps_eq_false s.pc).mpr hw) hs ((itRefused_eq_true p s.itstate).mpr hit))

end Sys2Proof.Machine
end

section
/-! PROOFS. The obligations of 30_encoding.md: the decoder and the encoder undo each other, and the words and fields of A1 and T1.
Each row of the opcode table has two facts: its encoding decodes to it, and a word of the row is the encoding of its fields. The bytes follow from the words. -/

namespace Sys2Proof

open Sys2Proof.Machine

/-! ### The fixed bits of every row -/

/-- The word of every instruction has the fixed bits of its row. -/
theorem encodeWord_row (i : Instr) : encodeWord i &&& i.row.mask = i.row.pattern := by
  cases i with
  | pkhbtA1 => exact (Laws.RowMatch.pkhbtA1 ..).1
  | pkhtbA1 => exact (Laws.RowMatch.pkhtbA1 ..).1
  | pkhbtT1 => exact (Laws.RowMatch.pkhbtT1 ..).1
  | pkhtbT1 => exact (Laws.RowMatch.pkhtbT1 ..).1
  | undefinedT1S => exact (Laws.RowMatch.undefinedT1S ..).1
  | undefinedT1T => exact (Laws.RowMatch.undefinedT1T ..).1
  | reservedT1Sbz15 => exact (Laws.RowMatch.reservedT1Sbz15 ..).1
  | reservedA1Cond1111 => exact (Laws.RowMatch.reservedA1Cond1111 ..).1

theorem encodeWord_t1_fixed {i : Instr} (h : i.iset = .t32) : encodeWord i &&& 0xFFE00000#32 = 0xEAC00000#32 := by
  cases i with
  | pkhbtT1 | pkhtbT1 | undefinedT1S | undefinedT1T | reservedT1Sbz15 =>
    exact and_eq_of_submask (encodeWord_row _) (by dsimp only [Instr.row]; decide) (by dsimp only [Instr.row]; decide)
  | pkhbtA1 | pkhtbA1 | reservedA1Cond1111 => exact nomatch h

theorem encodeWord_a1_fixed {i : Instr} (h : i.iset = .a32) : encodeWord i &&& 0x0FF00030#32 = 0x06800010#32 := by
  cases i with
  | pkhbtA1 | pkhtbA1 | reservedA1Cond1111 =>
    exact and_eq_of_submask (encodeWord_row _) (by dsimp only [Instr.row]; decide) (by dsimp only [Instr.row]; decide)
  | pkhbtT1 | pkhtbT1 | undefinedT1S | undefinedT1T | reservedT1Sbz15 => exact nomatch h

/-! ### The fields of the neighbouring rows -/

theorem encodeWord_undefinedT1S_fields (rn : RegField) (lo15 : BitVec 15) :
    (encodeWord (.undefinedT1S rn lo15)).extractLsb' 16 4 = rn ∧ (encodeWord (.undefinedT1S rn lo15)).extractLsb' 0 15 = lo15 := by
  constructor
  all_goals
    apply BitVec.eq_of_getLsbD_eq
    intro i hi
    simp only [encodeWord, BitVec.getLsbD_append, BitVec.getLsbD_extractLsb']
    interval_cases i <;> simp

theorem encodeWord_undefinedT1T_fields (rn : RegField) (mid10 : BitVec 10) (rm : RegField) :
    (encodeWord (.undefinedT1T rn mid10 rm)).extractLsb' 16 4 = rn ∧
    (encodeWord (.undefinedT1T rn mid10 rm)).extractLsb' 5 10 = mid10 ∧
    (encodeWord (.undefinedT1T rn mid10 rm)).extractLsb' 0 4 = rm ∧ (encodeWord (.undefinedT1T rn mid10 rm)).getLsbD 20 = false := by
  refine ⟨?_, ?_, ?_, by simp only [encodeWord, BitVec.getLsbD_append]; simp⟩
  all_goals
    apply BitVec.eq_of_getLsbD_eq
    intro i hi
    simp only [encodeWord, BitVec.getLsbD_append, BitVec.getLsbD_extractLsb']
    interval_cases i <;> simp

theorem encodeWord_reservedT1Sbz15_fields (s : BitVec 1) (rn : RegField) (lo15 : BitVec 15) :
    (encodeWord (.reservedT1Sbz15 s rn lo15)).extractLsb' 20 1 = s ∧
    (encodeWord (.reservedT1Sbz15 s rn lo15)).extractLsb' 16 4 = rn ∧
    (encodeWord (.reservedT1Sbz15 s rn lo15)).extractLsb' 0 15 = lo15 := by
  refine ⟨?_, ?_, ?_⟩
  all_goals
    apply BitVec.eq_of_getLsbD_eq
    intro i hi
    simp only [encodeWord, BitVec.getLsbD_append, BitVec.getLsbD_extractLsb']
    interval_cases i <;> simp

theorem encodeWord_reservedA1Cond1111_fields (mid14 : BitVec 14) (rm : RegField) :
    (encodeWord (.reservedA1Cond1111 mid14 rm)).extractLsb' 28 4 = 15#4 ∧
    (encodeWord (.reservedA1Cond1111 mid14 rm)).extractLsb' 6 14 = mid14 ∧
    (encodeWord (.reservedA1Cond1111 mid14 rm)).extractLsb' 0 4 = rm := by
  refine ⟨?_, ?_, ?_⟩
  all_goals
    apply BitVec.eq_of_getLsbD_eq
    intro i hi
    simp only [encodeWord, BitVec.getLsbD_append, BitVec.getLsbD_extractLsb']
    interval_cases i <;> simp

section Fixed

variable {w : Word}

theorem encodeWord_reservedT1Sbz15_of_fixed (ht1 : w &&& 0xFFE00000#32 = 0xEAC00000#32) (h15 : w.getLsbD 15 = true) :
    encodeWord (.reservedT1Sbz15 (w.extractLsb' 20 1) (w.extractLsb' 16 4) (w.extractLsb' 0 15)) = w := by
  apply BitVec.eq_of_getLsbD_eq
  intro i hi
  have hb := congrArg (BitVec.getLsbD · i) ht1
  simp only [BitVec.getLsbD_and, encodeWord, BitVec.getLsbD_append, BitVec.getLsbD_extractLsb'] at hb ⊢
  interval_cases i <;> simp_all

theorem encodeWord_reservedA1Cond1111_of_fixed (hfix : w &&& 0x0FF00030#32 = 0x06800010#32) (hcond : w.extractLsb' 28 4 = 15#4) :
    encodeWord (.reservedA1Cond1111 (w.extractLsb' 6 14) (w.extractLsb' 0 4)) = w := by
  apply BitVec.eq_of_getLsbD_eq
  intro i hi
  have hb := congrArg (BitVec.getLsbD · i) hfix
  have hc := congrArg (BitVec.getLsbD · (i - 28)) hcond
  simp only [BitVec.getLsbD_and, encodeWord, BitVec.getLsbD_append, BitVec.getLsbD_extractLsb'] at hb hc ⊢
  interval_cases i <;> simp_all

/-! ### The decoder, branch by branch -/

theorem decodeA32Word_eq_none (h : w &&& 0x0FF00030#32 ≠ 0x06800010#32) : decodeA32Word w = none := by
  simp [decodeA32Word, h]

theorem decodeA32Word_of_cond1111 (hfix : w &&& 0x0FF00030#32 = 0x06800010#32) (hcond : w.extractLsb' 28 4 = 15#4) :
    decodeA32Word w = some (.reservedA1Cond1111 (w.extractLsb' 6 14) (w.extractLsb' 0 4)) := by
  simp [decodeA32Word, hfix, hcond]

theorem decodeT32Word_eq_none (h : w &&& 0xFFE00000#32 ≠ 0xEAC00000#32) : decodeT32Word w = none := by
  simp [decodeT32Word, h]

theorem decodeT32Word_of_sbz15 (ht1 : w &&& 0xFFE00000#32 = 0xEAC00000#32) (h15 : w.getLsbD 15 = true) :
    decodeT32Word w = some (.reservedT1Sbz15 (w.extractLsb' 20 1) (w.extractLsb' 16 4) (w.extractLsb' 0 15)) := by
  simp only [decodeT32Word, ht1, h15, if_true]

theorem decodeT32Word_of_s (ht1 : w &&& 0xFFE00000#32 = 0xEAC00000#32) (h15 : w.getLsbD 15 = false) (h20 : w.getLsbD 20 = true) :
    decodeT32Word w = some (.undefinedT1S (w.extractLsb' 16 4) (w.extractLsb' 0 15)) := by
  simp only [decodeT32Word, ht1, h15, h20, if_true, if_false, Bool.false_eq_true]

theorem decodeT32Word_of_t (ht1 : w &&& 0xFFE00000#32 = 0xEAC00000#32) (h15 : w.getLsbD 15 = false) (h20 : w.getLsbD 20 = false)
    (h4 : w.getLsbD 4 = true) :
    decodeT32Word w = some (.undefinedT1T (w.extractLsb' 16 4) (w.extractLsb' 5 10) (w.extractLsb' 0 4)) := by
  simp only [decodeT32Word, ht1, h15, h20, h4, if_true, if_false, Bool.false_eq_true]

/-- The bits of R45 that make a word Pack Halfword: the T1 bits 31:21, with `S`, bit 15 and `T` clear. -/
theorem and_t1_iff : w &&& 0xFFF08010#32 = 0xEAC00000#32 ↔
    w &&& 0xFFE00000#32 = 0xEAC00000#32 ∧ w.getLsbD 15 = false ∧ w.getLsbD 20 = false ∧ w.getLsbD 4 = false := by
  constructor
  · intro h
    exact ⟨and_eq_of_submask h (by decide) (by decide), getLsbD_of_and_eq h (by decide), getLsbD_of_and_eq h (by decide),
      getLsbD_of_and_eq h (by decide)⟩
  · rintro ⟨h, h15, h20, h4⟩
    have hmask : 0xFFF08010#32 = 0xFFE00000#32 ||| BitVec.twoPow 32 15 ||| BitVec.twoPow 32 20 ||| BitVec.twoPow 32 4 := by decide
    simp [hmask, BitVec.and_or_distrib_left, h, h15, h20, h4, BitVec.and_twoPow, -BitVec.getLsbD_eq_getElem]

/-! ### Words -/

/-- What a word decodes to is encoded as that word, and has an encoding: no bit of the word is dropped. -/
theorem encodeWord_of_decodeA32Word {i : Instr} (h : decodeA32Word w = some i) : encodeWord i = w ∧ i.wellFormed = true := by
  by_cases hfix : w &&& 0x0FF00030#32 = 0x06800010#32
  · by_cases hcond : w.extractLsb' 28 4 = 15#4
    · obtain rfl := Option.some.inj ((decodeA32Word_of_cond1111 hfix hcond).symm.trans h)
      exact ⟨encodeWord_reservedA1Cond1111_of_fixed hfix hcond, rfl⟩
    · obtain rfl := Option.some.inj ((decodeA32Word_of_fixed hfix hcond).symm.trans h)
      constructor
      · rw [encodeWord_instrOf_a32, ofBool_getLsbD_eq_extractLsb', encodeA1_of_fixed hfix]
      · cases w.getLsbD 6 <;> simpa [instrOf, Instr.wellFormed] using hcond
  · exact nomatch (decodeA32Word_eq_none hfix).symm.trans h

theorem encodeWord_of_decodeT32Word {i : Instr} (h : decodeT32Word w = some i) : encodeWord i = w ∧ i.wellFormed = true := by
  by_cases ht1 : w &&& 0xFFE00000#32 = 0xEAC00000#32
  · cases h15 : w.getLsbD 15 with
    | true =>
      obtain rfl := Option.some.inj ((decodeT32Word_of_sbz15 ht1 h15).symm.trans h)
      exact ⟨encodeWord_reservedT1Sbz15_of_fixed ht1 h15, rfl⟩
    | false =>
      cases h20 : w.getLsbD 20 with
      | true =>
        obtain rfl := Option.some.inj ((decodeT32Word_of_s ht1 h15 h20).symm.trans h)
        exact ⟨encodeWord_undefinedT1S_of_fixed ht1 h20 h15, rfl⟩
      | false =>
        cases h4 : w.getLsbD 4 with
        | true =>
          obtain rfl := Option.some.inj ((decodeT32Word_of_t ht1 h15 h20 h4).symm.trans h)
          exact ⟨encodeWord_undefinedT1T_of_fixed ht1 h20 h15 h4, rfl⟩
        | false =>
          have hfix := and_t1_iff.mpr ⟨ht1, h15, h20, h4⟩
          obtain rfl := Option.some.inj ((decodeT32Word_of_fixed 0#4 hfix).symm.trans h)
          constructor
          · rw [encodeWord_instrOf_t32, ofBool_getLsbD_eq_extractLsb', encodeT1_of_fixed hfix]
          · cases w.getLsbD 5 <;> rfl
  · exact nomatch (decodeT32Word_eq_none ht1).symm.trans h

theorem encodeWord_of_decodeWord {set : ISet} {i : Instr} (h : decodeWord set w = some i) :
    encodeWord i = w ∧ i.wellFormed = true := by
  cases set with
  | a32 => exact encodeWord_of_decodeA32Word h
  | t32 => exact encodeWord_of_decodeT32Word h

end Fixed

/-- The encoding of a Pack Halfword decodes to it, in either set. -/
theorem decodeA32Word_encodeA1 {cond : BitVec 4} (tbform : Bool) (rn rd : RegField) (imm5 : BitVec 5) (rm : RegField)
    (hcond : cond ≠ 15#4) :
    decodeA32Word (encodeA1 cond rn rd imm5 (BitVec.ofBool tbform) rm) = some (instrOf .a32 cond tbform rn rd imm5 rm) := by
  obtain ⟨h28, h16, h12, h7, h6, h0⟩ := encodeA1_fields cond rn rd imm5 (BitVec.ofBool tbform) rm
  rw [decodeA32Word_of_fixed (encodeA1_fixed ..) (h28.trans_ne hcond), h28, h16, h12, h7, h6, h0]
  cases tbform <;> rfl

theorem decodeT32Word_encodeT1 (cond : BitVec 4) (tbform : Bool) (rn rd : RegField) (imm5 : BitVec 5) (rm : RegField) :
    decodeT32Word (encodeT1 rn rd imm5 (BitVec.ofBool tbform) rm) = some (instrOf .t32 cond tbform rn rd imm5 rm) := by
  obtain ⟨h16, h12, h8, h5, h0⟩ := encodeT1_fields rn rd imm5 (BitVec.ofBool tbform) rm
  rw [decodeT32Word_of_fixed cond (encodeT1_fixed ..), h16, h12, h8, h5, h0]
  cases tbform <;> rfl

/-- Every encodable instruction is what its word decodes to. -/
theorem decodeWord_encodeWord {i : Instr} (hwf : i.wellFormed = true) : decodeWord i.iset (encodeWord i) = some i := by
  cases i with
  | pkhbtA1 cond rn rd imm5 rm => exact decodeA32Word_encodeA1 false rn rd imm5 rm (by simpa [Instr.wellFormed] using hwf)
  | pkhtbA1 cond rn rd imm5 rm => exact decodeA32Word_encodeA1 true rn rd imm5 rm (by simpa [Instr.wellFormed] using hwf)
  | pkhbtT1 rn rd imm5 rm => exact decodeT32Word_encodeT1 0#4 false rn rd imm5 rm
  | pkhtbT1 rn rd imm5 rm => exact decodeT32Word_encodeT1 0#4 true rn rd imm5 rm
  | undefinedT1S rn lo15 =>
    have hrow : encodeWord (.undefinedT1S rn lo15) &&& 0xFFF08000#32 = 0xEAD00000#32 := encodeWord_row _
    obtain ⟨h16, h0⟩ := encodeWord_undefinedT1S_fields rn lo15
    exact (decodeT32Word_of_s (encodeWord_t1_fixed rfl) (getLsbD_of_and_eq hrow (by decide)) (getLsbD_of_and_eq hrow (by decide))).trans
      (by rw [h16, h0])
  | undefinedT1T rn mid10 rm =>
    have hrow : encodeWord (.undefinedT1T rn mid10 rm) &&& 0xFFE08010#32 = 0xEAC00010#32 := encodeWord_row _
    obtain ⟨h16, h5, h0, h20⟩ := encodeWord_undefinedT1T_fields rn mid10 rm
    exact (decodeT32Word_of_t (encodeWord_t1_fixed rfl) (getLsbD_of_and_eq hrow (by decide)) h20 (getLsbD_of_and_eq hrow (by decide))).trans
      (by rw [h16, h5, h0])
  | reservedT1Sbz15 s rn lo15 =>
    have hrow : encodeWord (.reservedT1Sbz15 s rn lo15) &&& 0xFFE08000#32 = 0xEAC08000#32 := encodeWord_row _
    obtain ⟨h20, h16, h0⟩ := encodeWord_reservedT1Sbz15_fields s rn lo15
    exact (decodeT32Word_of_sbz15 (encodeWord_t1_fixed rfl) (getLsbD_of_and_eq hrow (by decide))).trans (by rw [h20, h16, h0])
  | reservedA1Cond1111 mid14 rm =>
    obtain ⟨h28, h6, h0⟩ := encodeWord_reservedA1Cond1111_fields mid14 rm
    exact (decodeA32Word_of_cond1111 (encodeWord_a1_fixed rfl) h28).trans (by rw [h6, h0])

/-! ### Bytes -/

theorem decodedOf_eq_instr {set : ISet} {w : Word} {rest rest' : List Byte} {i : Instr} :
    decodedOf set w rest = .instr i rest' ↔ decodeWord set w = some i ∧ rest = rest' := by
  unfold decodedOf
  cases decodeWord set w <;> simp

theorem decodedOf_ne_truncated (set : ISet) (w : Word) (rest : List Byte) (k : Nat) : decodedOf set w rest ≠ .truncated k := by
  unfold decodedOf
  cases decodeWord set w <;> simp

/-- The bytes that decode to an instruction are those of a word that decodes to it. -/
theorem decode_eq_instr {set : ISet} {bs rest : List Byte} {i : Instr} (h : decode set bs = .instr i rest) :
    ∃ w, bs = wordBytes set w ++ rest ∧ decodeWord set w = some i := by
  unfold decode at h
  split at h
  next b0 b1 b2 b3 rest' =>
    obtain ⟨hw, rfl⟩ := decodedOf_eq_instr.mp h
    exact ⟨_, by rw [wordBytes_a32_word32]; rfl, hw⟩
  next => exact nomatch h
  next b0 b1 bs' =>
    split at h
    · unfold decodeSecondHalf at h
      split at h
      next b2 b3 rest' =>
        obtain ⟨hw, rfl⟩ := decodedOf_eq_instr.mp h
        exact ⟨_, by rw [wordBytes_t32_halves]; rfl, hw⟩
      next => exact nomatch h
    · exact nomatch h
  next => exact nomatch h

/-- Settles O3: the bytes decode to the word, and the word to its instruction; every T1 word starts with a wide halfword. -/
theorem decodeOfEncode : Obligations.DecodeOfEncode := by
  intro i rest hwf
  have hw := decodeWord_encodeWord hwf
  have hbytes : decode i.iset (encode i ++ rest) = decodedOf i.iset (encodeWord i) rest := by
    unfold encode
    cases hset : i.iset with
    | a32 => exact decode_wordBytes_a32 _ _
    | t32 => exact decode_wordBytes_t32 _ (isWide_of_t1 (encodeWord_t1_fixed hset))
  rw [hbytes, decodedOf_eq_instr]
  exact ⟨hw, rfl⟩

/-- Settles O4: the decoded word is the instruction's own encoding, so the bytes are too. -/
theorem encodeOfDecode : Obligations.EncodeOfDecode := by
  intro set bs rest i h
  obtain ⟨w, rfl, hw⟩ := decode_eq_instr h
  obtain ⟨henc, hwf⟩ := encodeWord_of_decodeWord hw
  have hset := decodeWord_iset hw
  exact ⟨by rw [encode, hset, henc], hwf, hset⟩

/-! ### The words and fields of A1 and T1 -/

section Fields

variable {w : Word} {cond : BitVec 4} {tbform : Bool} {rn rd : RegField} {imm5 : BitVec 5} {rm : RegField}

theorem instrOf_a32_inj {cond' : BitVec 4} {tbform' : Bool} {rn' rd' : RegField} {imm5' : BitVec 5} {rm' : RegField} :
    instrOf .a32 cond tbform rn rd imm5 rm = instrOf .a32 cond' tbform' rn' rd' imm5' rm' ↔
      cond = cond' ∧ tbform = tbform' ∧ rn = rn' ∧ rd = rd' ∧ imm5 = imm5' ∧ rm = rm' := by
  cases tbform <;> cases tbform' <;> simp [instrOf]

theorem instrOf_t32_inj {cond' : BitVec 4} {tbform' : Bool} {rn' rd' : RegField} {imm5' : BitVec 5} {rm' : RegField} :
    instrOf .t32 cond tbform rn rd imm5 rm = instrOf .t32 cond' tbform' rn' rd' imm5' rm' ↔
      tbform = tbform' ∧ rn = rn' ∧ rd = rd' ∧ imm5 = imm5' ∧ rm = rm' := by
  cases tbform <;> cases tbform' <;> simp [instrOf]

/-- The A1 words of the two instructions, and their fields (30_encoding.md R38, R39, R41). -/
theorem decodeA32Word_eq_instrOf :
    decodeA32Word w = some (instrOf .a32 cond tbform rn rd imm5 rm) ↔
      w &&& 0x0FF00030#32 = 0x06800010#32 ∧ w.extractLsb' 28 4 ≠ 15#4 ∧ w.extractLsb' 28 4 = cond ∧ w.getLsbD 6 = tbform ∧
        w.extractLsb' 16 4 = rn ∧ w.extractLsb' 12 4 = rd ∧ w.extractLsb' 7 5 = imm5 ∧ w.extractLsb' 0 4 = rm := by
  by_cases hfix : w &&& 0x0FF00030#32 = 0x06800010#32
  · by_cases hcond : w.extractLsb' 28 4 = 15#4
    · cases tbform <;> simp [decodeA32Word_of_cond1111 hfix hcond, instrOf, hcond]
    · rw [decodeA32Word_of_fixed hfix hcond, Option.some_inj, instrOf_a32_inj]
      simp only [hfix, ne_eq, hcond, not_false_eq_true, true_and]
  · simp [decodeA32Word_eq_none hfix, hfix]

/-- The T1 words of the two instructions, and their fields (R44, R45, R48, R49). -/
theorem decodeT32Word_eq_instrOf (cond : BitVec 4) :
    decodeT32Word w = some (instrOf .t32 cond tbform rn rd imm5 rm) ↔
      w &&& 0xFFF08010#32 = 0xEAC00000#32 ∧ w.getLsbD 5 = tbform ∧ w.extractLsb' 16 4 = rn ∧ w.extractLsb' 8 4 = rd ∧
        w.extractLsb' 12 3 ++ w.extractLsb' 6 2 = imm5 ∧ w.extractLsb' 0 4 = rm := by
  by_cases hfix : w &&& 0xFFF08010#32 = 0xEAC00000#32
  · rw [decodeT32Word_of_fixed cond hfix, Option.some_inj, instrOf_t32_inj]
    simp only [hfix, true_and]
  · constructor
    · intro h
      have henc := (encodeWord_of_decodeT32Word h).1
      rw [encodeWord_instrOf_t32] at henc
      exact absurd (henc ▸ encodeT1_fixed ..) hfix
    · exact fun h => absurd h.1 hfix

/-- A row of the table that fixes one more bit than `mask`. -/
theorem and_or_twoPow_iff {mask pattern mask' pattern' : Word} {i : Nat} {b : Bool} (hm : mask ||| BitVec.twoPow 32 i = mask')
    (hp : pattern ||| (if b then BitVec.twoPow 32 i else 0#32) = pattern') (hi : mask'.getLsbD i = true)
    (hb : pattern'.getLsbD i = b) (hsub : mask' &&& mask = mask) (hsub' : pattern' &&& mask = pattern) :
    w &&& mask' = pattern' ↔ w &&& mask = pattern ∧ w.getLsbD i = b := by
  constructor
  · intro h
    exact ⟨and_eq_of_submask h hsub hsub', (getLsbD_of_and_eq h hi).trans hb⟩
  · rintro ⟨h, hbit⟩
    rw [← hm, BitVec.and_or_distrib_left, h, BitVec.and_twoPow, hbit, hp]

end Fields

/-- Settles O5: a Pack Halfword row is the A1 bits with bit 6 fixed, and the fields are the decoder's. -/
theorem a1WordsAndFields : Obligations.A1WordsAndFields := by
  intro w
  have hbt : w &&& 0x0FF00070#32 = 0x06800010#32 ↔ w &&& 0x0FF00030#32 = 0x06800010#32 ∧ w.getLsbD 6 = false :=
    and_or_twoPow_iff (by decide) (by decide) (by decide) (by decide) (by decide) (by decide)
  have htb : w &&& 0x0FF00070#32 = 0x06800050#32 ↔ w &&& 0x0FF00030#32 = 0x06800010#32 ∧ w.getLsbD 6 = true :=
    and_or_twoPow_iff (by decide) (by decide) (by decide) (by decide) (by decide) (by decide)
  refine ⟨fun cond rn rd imm5 rm => ?_, fun cond rn rd imm5 rm => ?_, ?_, ?_⟩
  · rw [hbt]
    exact (decodeA32Word_eq_instrOf (tbform := false)).trans (by tauto)
  · rw [htb]
    exact (decodeA32Word_eq_instrOf (tbform := true)).trans (by tauto)
  · rintro ⟨i, hi, cond, rn, rd, imm5, rm, rfl | rfl⟩
    · obtain ⟨hfix, hcond, -⟩ := decodeA32Word_eq_instrOf (tbform := false).mp hi
      exact ⟨hfix, hcond⟩
    · obtain ⟨hfix, hcond, -⟩ := decodeA32Word_eq_instrOf (tbform := true).mp hi
      exact ⟨hfix, hcond⟩
  · rintro ⟨hfix, hcond⟩
    have hdec := decodeA32Word_of_fixed hfix hcond
    cases h6 : w.getLsbD 6 with
    | false => exact ⟨_, h6 ▸ hdec, _, _, _, _, _, .inl rfl⟩
    | true => exact ⟨_, h6 ▸ hdec, _, _, _, _, _, .inr rfl⟩

/-- Settles O6: a Pack Halfword row is the T1 bits with `S`, bit 15 and `T` clear and bit 5 fixed, and the fields are the decoder's. -/
theorem t1WordsAndFields : Obligations.T1WordsAndFields := by
  intro w
  have hbt : w &&& 0xFFF08030#32 = 0xEAC00000#32 ↔ w &&& 0xFFF08010#32 = 0xEAC00000#32 ∧ w.getLsbD 5 = false :=
    and_or_twoPow_iff (by decide) (by decide) (by decide) (by decide) (by decide) (by decide)
  have htb : w &&& 0xFFF08030#32 = 0xEAC00020#32 ↔ w &&& 0xFFF08010#32 = 0xEAC00000#32 ∧ w.getLsbD 5 = true :=
    and_or_twoPow_iff (by decide) (by decide) (by decide) (by decide) (by decide) (by decide)
  refine ⟨fun rn rd imm5 rm => ?_, fun rn rd imm5 rm => ?_, ?_, ?_⟩
  · rw [hbt]
    exact (decodeT32Word_eq_instrOf (tbform := false) 0#4).trans (by tauto)
  · rw [htb]
    exact (decodeT32Word_eq_instrOf (tbform := true) 0#4).trans (by tauto)
  · rintro ⟨i, hi, rn, rd, imm5, rm, rfl | rfl⟩
    · exact ((decodeT32Word_eq_instrOf (tbform := false) 0#4).mp hi).1
    · exact ((decodeT32Word_eq_instrOf (tbform := true) 0#4).mp hi).1
  · intro hfix
    have hdec := decodeT32Word_of_fixed 0#4 hfix
    cases h5 : w.getLsbD 5 with
    | false => exact ⟨_, h5 ▸ hdec, _, _, _, _, .inl rfl⟩
    | true => exact ⟨_, h5 ▸ hdec, _, _, _, _, .inr rfl⟩

/-- Settles O7: each list of bytes is evaluated by the decoder. -/
theorem specWordsDecode : Obligations.SpecWordsDecode := by
  unfold Obligations.SpecWordsDecode
  decide

end Sys2Proof
end

section
/-! PROOFS. The obligations of 20_memory.md and 60_exceptions.md about a step and its word: what a fetch gives, the outcome of every word, and what a fault stands for. -/

namespace Sys2Proof.Machine

open Sys2Proof

/-! ### The bytes of a fetch -/

/-- A fetch that is given all its bytes goes on with those after them. -/
theorem Memory.fetchBytes_add {m : Memory} {a n : Nat} (k : Nat) (h : (m.fetchBytes a n).length = n) :
    m.fetchBytes a (n + k) = m.fetchBytes a n ++ m.fetchBytes (a + n) k := by
  induction n generalizing a with
  | zero => simp [Memory.fetchBytes]
  | succ n ih =>
    rw [show n + 1 + k = n + k + 1 by omega]
    simp only [Memory.fetchBytes] at h ⊢
    cases hr : m.read a with
    | none => simp [hr] at h
    | some b =>
      have hn : (m.fetchBytes (a + 1) n).length = n := by simpa [hr] using h
      simp only [List.cons_append, ih hn, Nat.add_assoc, Nat.add_comm 1 n]

/-- The bytes at the pc, once the first halfword is known. -/
theorem fetchBytes_of_half {s : State} {hw1 : Half} (h : s.mem.fetchBytes s.pc.toNat 2 = halfBytes hw1) :
    s.mem.fetchBytes s.pc.toNat 4 = halfBytes hw1 ++ s.mem.fetchBytes (s.pc.toNat + 2) 2 := by
  rw [← h]
  exact Memory.fetchBytes_add 2 (by rw [h]; rfl)

/-! ### Decoding fewer than four bytes -/

theorem decode_a32_of_short {bs : List Byte} (h : bs.length < 4) : decode .a32 bs = .truncated bs.length := by
  match bs, h with
  | [], _ | [_], _ | [_, _], _ | [_, _, _], _ => rfl

theorem decode_t32_of_short {bs : List Byte} (h : bs.length < 2) : decode .t32 bs = .truncated bs.length := by
  match bs, h with
  | [], _ | [_], _ => rfl

/-- A first halfword that is no wide one is a whole instruction, and no word of the source (20_memory.md R30, 30_encoding.md R53). -/
theorem decode_halfBytes_narrow {hw1 : Half} (bs : List Byte) (h : isWide hw1 = false) :
    decode .t32 (halfBytes hw1 ++ bs) = .notInSource (hw1.zeroExtend 32) := by
  simp [halfBytes, decode, h]

theorem decode_halfBytes_wide_of_short {hw1 : Half} {bs : List Byte} (hwide : isWide hw1 = true) (h : bs.length < 2) :
    decode .t32 (halfBytes hw1 ++ bs) = .truncated (halfBytes hw1 ++ bs).length := by
  match bs, h with
  | [], _ | [_], _ => simp [halfBytes, decode, hwide, decodeSecondHalf]

/-- Bytes are truncated exactly where they end, and never after four of them. -/
theorem decode_eq_truncated {set : ISet} {bs : List Byte} {k : Nat} (h : decode set bs = .truncated k) : k = bs.length ∧ k < 4 := by
  cases set with
  | a32 =>
    match bs with
    | [] | [_] | [_, _] | [_, _, _] =>
      obtain rfl := Decoded.truncated.inj h
      exact ⟨rfl, by simp⟩
    | _ :: _ :: _ :: _ :: _ => exact (decodedOf_ne_truncated _ _ _ _ h).elim
  | t32 =>
    match bs with
    | [] | [_] =>
      obtain rfl := Decoded.truncated.inj h
      exact ⟨rfl, by simp⟩
    | b0 :: b1 :: bs =>
      cases hwide : isWide (half b0 b1) with
      | false => simp [decode, hwide] at h
      | true =>
        match bs with
        | [] | [_] =>
          obtain rfl : _ = k := by simpa [decode, hwide, decodeSecondHalf] using h
          simp
        | _ :: _ :: _ => exact (decodedOf_ne_truncated _ _ _ _ (by simpa [decode, hwide, decodeSecondHalf] using h)).elim

/-! ### What a fetch gives -/

section Fetch

variable {s : State}

/-- The instruction fetched is the one whose encoding stands at the pc. -/
theorem fetchDecode_next {i : Instr} (h : fetchDecode s = .next i) :
    TextHolds s (encodeWord i) ∧ decodeWord s.iset (encodeWord i) = some i := by
  have hd : ∃ rest, decode s.iset (s.mem.fetchBytes s.pc.toNat 4) = .instr i rest := by
    rw [fetchDecode_of_bytes rfl] at h
    split at h
    next j rest hj => exact ⟨rest, Host.Outcome.next.inj h ▸ hj⟩
    next => exact nomatch h
    next => exact nomatch h
  obtain ⟨rest, hd⟩ := hd
  obtain ⟨w, hbytes, hw⟩ := decode_eq_instr hd
  have hlen := Memory.fetchBytes_length s.mem s.pc.toNat 4
  rw [hbytes, List.length_append, wordBytes_length] at hlen
  obtain rfl : rest = [] := List.length_eq_zero_iff.mp (by omega)
  rw [(encodeWord_of_decodeWord hw).1]
  exact ⟨hbytes.trans (List.append_nil _), hw⟩

/-- A fetch that is stuck is stuck at the first of its four addresses that is outside the text (20_memory.md R34). -/
theorem fetchDecode_fault {f : Fault} (h : fetchDecode s = .fault f) :
    ∃ k < 4, f = .fetchOutsideText (s.pc + BitVec.ofNat 32 k) ∧ s.mem.read (s.pc.toNat + k) = none := by
  rw [fetchDecode_of_bytes rfl] at h
  split at h
  next => exact nomatch h
  next => exact nomatch h
  next k hk =>
    obtain ⟨rfl, hlt⟩ := decode_eq_truncated hk
    exact ⟨_, hlt, (Host.Outcome.fault.inj h).symm, Memory.read_fetchBytes_end hlt⟩

end Fetch

/-! ### A ready step -/

section Ready

variable {p : ItSupport} {s : State}

/-- A ready step refuses what is no word of the source (30_encoding.md R53). -/
theorem stepWith_of_notInSource {w : Word} (hr : StepReady p s)
    (hd : decode s.iset (s.mem.fetchBytes s.pc.toNat 4) = .notInSource w) : stepWith p s = .refused (.wordNotInSource s.pc w) := by
  obtain ⟨hmark, hcheck⟩ := hr
  rw [stepWith_of_ready hmark hcheck, fetchDecode_of_bytes rfl, hd]

/-- A ready step is stuck where its bytes end. -/
theorem stepWith_of_truncated {k : Nat} (hr : StepReady p s)
    (hd : decode s.iset (s.mem.fetchBytes s.pc.toNat 4) = .truncated k) :
    stepWith p s = .fault (.fetchOutsideText (s.pc + BitVec.ofNat 32 k)) := by
  obtain ⟨hmark, hcheck⟩ := hr
  rw [stepWith_of_ready hmark hcheck, fetchDecode_of_bytes rfl, hd]

theorem decodedOf_of_none {set : ISet} {w : Word} (rest : List Byte) (h : decodeWord set w = none) :
    decodedOf set w rest = .notInSource w := by
  simp [decodedOf, h]

theorem stepWith_of_decodeA32Word_none {w : Word} (hr : StepReady p s) (hs : s.iset = .a32) (hw : TextHolds s w)
    (h : decodeA32Word w = none) : stepWith p s = .refused (.wordNotInSource s.pc w) := by
  have hd := decode_wordBytes_a32 w []
  rw [List.append_nil, decodedOf_of_none (set := .a32) [] h] at hd
  exact stepWith_of_notInSource hr (by rw [hw, hs, hd])

theorem stepWith_of_decodeT32Word_none {w : Word} (hr : StepReady p s) (hs : s.iset = .t32) (hw : TextHolds s w)
    (hwide : isWide (w.extractLsb' 16 16) = true) (h : decodeT32Word w = none) :
    stepWith p s = .refused (.wordNotInSource s.pc w) := by
  have hd := decode_wordBytes_t32 [] hwide
  rw [List.append_nil, decodedOf_of_none (set := .t32) [] h] at hd
  exact stepWith_of_notInSource hr (by rw [hw, hs, hd])

/-- A step that answers every register choice 0 to 14 with a next state has one where no field is 15. -/
theorem exists_next_of_regsDefined {rd rn rm : RegField} {f : Reg → Reg → Reg → State} (h : RegsDefined rd rn rm)
    (hnext : ∀ d n m : Reg, rd = fieldOf d → rn = fieldOf n → rm = fieldOf m → stepWith p s = .next (f d n m)) :
    ∃ t, stepWith p s = .next t := by
  obtain ⟨hd, hn, hm⟩ := h
  obtain ⟨d, hd⟩ := exists_fieldOf hd
  obtain ⟨n, hn⟩ := exists_fieldOf hn
  obtain ⟨m, hm⟩ := exists_fieldOf hm
  exact ⟨_, hnext d n m hd hn hm⟩

end Ready

theorem not_regsDefined_iff {rd rn rm : RegField} : ¬ RegsDefined rd rn rm ↔ rd = 15#4 ∨ rn = 15#4 ∨ rm = 15#4 := by
  simp only [RegsDefined, not_and_or, ne_eq, not_not]

/-- Settles O8: a ready step is its fetch and then `exec`. -/
theorem stepRunsDecodedInstruction : Obligations.StepRunsDecodedInstruction := by
  rintro p s i rest ⟨hmark, hcheck⟩ hd
  rw [stepWith_of_ready hmark hcheck, fetchDecode_of_bytes rfl, hd]

/-- Settles O9: the branches of `decodeA32Word`, and then the register fields. -/
theorem a32WordOutcomes : Obligations.A32WordOutcomes := by
  intro p s w hr hs hw
  by_cases hfix : w &&& 0x0FF00030#32 = 0x06800010#32
  · by_cases hcond : w.extractLsb' 28 4 = 15#4
    · rw [if_pos (.inr hcond), stepWith_of_decodeA32Word hr hs hw (decodeA32Word_of_cond1111 hfix hcond)]
      exact congrArg (fun w => Host.Outcome.refused (Refusal.wordNotInSource s.pc w)) (encodeWord_reservedA1Cond1111_of_fixed hfix hcond)
    · rw [if_neg (not_or.mpr ⟨not_not.mpr hfix, hcond⟩)]
      obtain ⟨hfifteen, hnext⟩ := stepWith_of_a1 hr hs hw hfix hcond
      split_ifs with hregs
      · exact hfifteen (not_regsDefined_iff.mpr hregs)
      · exact exists_next_of_regsDefined (not_not.mp fun h => hregs (not_regsDefined_iff.mp h)) hnext
  · rw [if_pos (.inl hfix)]
    exact stepWith_of_decodeA32Word_none hr hs hw (decodeA32Word_eq_none hfix)

/-! ### T32 words -/

/-- `hw1[15:11]` is `w[31:27]`. -/
theorem isWide_iff {w : Word} : isWide (w.extractLsb' 16 16) = true ↔
    w.extractLsb' 27 5 = 0b11101#5 ∨ w.extractLsb' 27 5 = 0b11110#5 ∨ w.extractLsb' 27 5 = 0b11111#5 := by
  have h : (w.extractLsb' 16 16).extractLsb' 11 5 = w.extractLsb' 27 5 := by
    apply BitVec.eq_of_getLsbD_eq
    intro i hi
    simp only [BitVec.getLsbD_extractLsb']
    interval_cases i <;> simp
  simp [isWide, h, or_assoc]

/-- The T1 bits 31:21, as a field and under their mask. -/
theorem t1_field_iff {w : Word} : w.extractLsb' 21 11 = 0b11101010110#11 ↔ w &&& 0xFFE00000#32 = 0xEAC00000#32 := by
  constructor
  · intro h
    apply BitVec.eq_of_getLsbD_eq
    intro i hi
    have hb := congrArg (BitVec.getLsbD · (i - 21)) h
    simp only [BitVec.getLsbD_and, BitVec.getLsbD_extractLsb'] at hb ⊢
    interval_cases i <;> simp_all
  · intro h
    apply BitVec.eq_of_getLsbD_eq
    intro i hi
    have hb := congrArg (BitVec.getLsbD · (21 + i)) h
    simp only [BitVec.getLsbD_and, BitVec.getLsbD_extractLsb'] at hb ⊢
    interval_cases i <;> simp_all

/-- Settles O10: a 16-bit instruction is no word of the source; a wide one takes the branches of `decodeT32Word`, and then the register fields. -/
theorem t32WordOutcomes : Obligations.T32WordOutcomes := by
  intro p s hr hs
  constructor
  · intro hw1 hbytes h29 h30 h31
    have hnarrow : isWide hw1 = false := by simp [isWide, h29, h30, h31]
    exact stepWith_of_notInSource hr (by rw [hs, fetchBytes_of_half hbytes, decode_halfBytes_narrow _ hnarrow])
  · intro w hw hwide
    split_ifs with ht1 h15 hst hregs
    · exact stepWith_of_decodeT32Word_none hr hs hw (isWide_iff.mpr hwide) (decodeT32Word_eq_none (mt t1_field_iff.mpr ht1))
    · have ht1 := t1_field_iff.mp (not_not.mp ht1)
      rw [stepWith_of_decodeT32Word hr hs hw ht1 (decodeT32Word_of_sbz15 ht1 h15)]
      exact congrArg (fun w => Host.Outcome.refused (Refusal.sbz15 s.pc w)) (encodeWord_reservedT1Sbz15_of_fixed ht1 h15)
    · exact t1UndefinedWordsFault p s w hr hs hw (t1_field_iff.mp (not_not.mp ht1)) hst (Bool.eq_false_iff.mpr h15)
    all_goals
      obtain ⟨h20, h4⟩ := not_or.mp hst
      obtain ⟨hfifteen, hnext⟩ := stepWith_of_t1 hr hs hw (and_t1_iff.mpr
        ⟨t1_field_iff.mp (not_not.mp ht1), Bool.eq_false_iff.mpr h15, Bool.eq_false_iff.mpr h20, Bool.eq_false_iff.mpr h4⟩)
    · exact hfifteen (not_regsDefined_iff.mpr hregs)
    · exact exists_next_of_regsDefined (not_not.mp fun h => hregs (not_regsDefined_iff.mp h)) hnext

/-! ### Faults -/

/-- Settles O17: the bytes end before the instruction does, so the decoder answers their number; the pc does not wrap within it. -/
theorem fetchOutsideTextIsStuck : Obligations.FetchOutsideTextIsStuck := by
  rintro p s k hr rfl hshort
  have hd : decode s.iset (s.mem.fetchBytes s.pc.toNat 4) = .truncated (s.mem.fetchBytes s.pc.toNat 4).length := by
    rcases hshort with ⟨hs, h4⟩ | ⟨hs, h2⟩ | ⟨hs, h4, hw1, hbytes, hwide⟩
    · rw [hs, decode_a32_of_short h4]
    · rw [hs, decode_t32_of_short h2]
    · rw [fetchBytes_of_half hbytes] at h4 ⊢
      rw [hs, decode_halfBytes_wide_of_short hwide (by simp only [halfBytes, List.length_append, List.length_cons, List.length_nil] at h4; omega)]
  have hlt := (decode_eq_truncated hd).2
  have hstep := stepWith_of_truncated hr hd
  have hwrap := (pcWraps_eq_false s.pc).mp (stepCheck_eq_none.mp hr.2).2.1
  refine ⟨hstep, ?_, Memory.read_fetchBytes_end hlt, by rw [advance, hstep, recorded]⟩
  rw [BitVec.toNat_add, BitVec.toNat_ofNat]
  omega

/-- Only the two UNDEFINED rows fault (60_exceptions.md R74). -/
theorem exec_fault {i : Instr} {s : State} {f : Fault} (h : exec i s = .fault f) :
    f = .undefinedInstruction s.pc (encodeWord i) ∧
      ((∃ rn lo15, i = .undefinedT1S rn lo15) ∨ ∃ rn mid10 rm, i = .undefinedT1T rn mid10 rm) := by
  have hpack {set w cond tbform rd rn imm5 rm} : packChecked set w cond tbform rd rn imm5 rm s ≠ .fault f := by
    rcases packChecked_cases set w cond tbform rd rn imm5 rm s with ⟨d, n, m, -, -, -, he⟩ | ⟨-, he⟩ <;> simp [he]
  cases i with
  | pkhbtA1 | pkhtbA1 | pkhbtT1 | pkhtbT1 => exact absurd h hpack
  | undefinedT1S rn lo15 => exact ⟨(Host.Outcome.fault.inj h).symm, .inl ⟨rn, lo15, rfl⟩⟩
  | undefinedT1T rn mid10 rm => exact ⟨(Host.Outcome.fault.inj h).symm, .inr ⟨rn, mid10, rm, rfl⟩⟩
  | reservedT1Sbz15 | reservedA1Cond1111 => exact nomatch h

/-- A step of an unmarked state faults in its fetch or in its instruction. -/
theorem stepWith_fault {p : ItSupport} {s : State} {f : Fault} (hm : s.mark = none) (h : stepWith p s = .fault f) :
    fetchDecode s = .fault f ∨ ∃ i, fetchDecode s = .next i ∧ exec i s = .fault f := by
  cases hc : stepCheck p s with
  | some r => exact nomatch (stepWith_of_check hm hc).symm.trans h
  | none =>
    rw [stepWith_of_ready hm hc] at h
    cases hf : fetchDecode s with
    | next i => exact .inr ⟨i, rfl, by simpa [hf] using h⟩
    | fault g => exact .inl (by simpa [hf] using h)
    | refused r => simp [hf] at h

/-- Settles O18: `exec` faults on the two UNDEFINED rows alone, whose bits their own words have, and a fetch where the text ends. -/
theorem onlyUndefinedAndStuckFault : Obligations.OnlyUndefinedAndStuckFault := by
  intro p s f hm h
  rcases stepWith_fault hm h with hf | ⟨i, hf, he⟩
  · exact .inr (fetchDecode_fault hf)
  · obtain ⟨hw, hi⟩ := fetchDecode_next hf
    obtain ⟨rfl, hrow⟩ := exec_fault he
    have hs := decodeWord_iset hi
    obtain ⟨rn, lo15, rfl⟩ | ⟨rn, mid10, rm, rfl⟩ := hrow
    · have hbits : encodeWord (.undefinedT1S rn lo15) &&& 0xFFF08000#32 = 0xEAD00000#32 := encodeWord_row _
      exact .inl ⟨hs.symm, _, hw, encodeWord_t1_fixed rfl, getLsbD_of_and_eq hbits (by decide),
        .inl (getLsbD_of_and_eq hbits (by decide)), rfl⟩
    · have hbits : encodeWord (.undefinedT1T rn mid10 rm) &&& 0xFFE08010#32 = 0xEAC00010#32 := encodeWord_row _
      exact .inl ⟨hs.symm, _, hw, encodeWord_t1_fixed rfl, getLsbD_of_and_eq hbits (by decide),
        .inr (getLsbD_of_and_eq hbits (by decide)), rfl⟩

end Sys2Proof.Machine
end

section
/-! PROOFS. The obligations about the whole machine: the invariant, what no number of steps changes, the marks, and the end of a run.
Everything rests on two facts: a next state is `packExec`'s, and a stop records at most a mark. -/

namespace Sys2Proof.Machine

open Sys2Proof

/-! ### The invariant -/

/-- Settles O1: both settings differ in `DIT` alone, and the rest is evaluated. -/
theorem resetMeetsInvariant : Obligations.ResetMeetsInvariant := by
  intro d
  exact ⟨⟨Memory.reset_wf, rfl, fun _ => rfl, (by decide : itMalformed 0#8 = false)⟩, State.ditSupport_resetOf d, rfl, rfl⟩

/-- What a launch that meets R84's requirements gives. -/
theorem launch_ok_iff {p : ItSupport} {d : DitSupport} {l : Launch} : l.ok p d = true ↔
    pcAligned l.iset l.pc = true ∧ Memory.wf l.text ∧ itMalformed l.itstate = false ∧
      (l.itstate = 0#8 ∨ p = .full ∧ l.iset = .t32) ∧ l.state.ditSupport = d := by
  simp only [Launch.ok, Bool.and_eq_true, Bool.or_eq_true, decide_eq_true_eq, beq_iff_eq, Bool.not_eq_true', and_assoc]

@[simp] theorem itRefused_zero (p : ItSupport) : itRefused p 0#8 = false := by cases p <;> decide

/-- Settles O2: outside an IT block no setting of `P_IT` refuses a step, and in one only `full` is launched. -/
theorem launchMeetsInvariant : Obligations.LaunchMeetsInvariant := by
  intro p d l hok
  obtain ⟨ha, hwf, hit, hblock, -⟩ := launch_ok_iff.mp hok
  refine ⟨⟨hwf, ha, fun hs => ?_, hit⟩, rfl, fun hw => stepCheck_eq_none.mpr ⟨ha, hw, fun _ => ?_⟩⟩
  · exact hblock.resolve_right fun h => nomatch hs.symm.trans h.2
  · rcases hblock with h0 | ⟨rfl, -⟩
    · rw [show l.state.itstate = 0#8 from h0, itRefused_zero]
    · exact hit

section Next

variable {p : ItSupport} {s t : State}

/-- A step changes registers, pc and `ITSTATE` alone (10_state.md R25). -/
theorem stepWith_next_keepsFixed (h : stepWith p s = .next t) : KeepsFixed s t := by
  obtain ⟨-, -, set, cond, tbform, d, n, imm5, m, rfl⟩ := stepWith_next_cases h
  exact ⟨packExec_n .., packExec_z .., packExec_c .., packExec_v .., packExec_dit .., packExec_iset .., packExec_mem .., packExec_mark ..⟩

/-- A step keeps the alignment of the pc (20_memory.md R32). -/
theorem stepWith_next_pcAligned (h : stepWith p s = .next t) : pcAligned s.iset t.pc = true := by
  obtain ⟨ha32, ht32⟩ := misalignedPcIsRefused.2 p s t h
  cases hs : s.iset with
  | a32 => exact (pcAligned_a32 _).mpr (ha32 hs).2
  | t32 => exact (pcAligned_t32 _).mpr (ht32 hs).2

/-- A step keeps `ITSTATE` well-formed (10_state.md R24). -/
theorem stepWith_next_itWellFormed (h : stepWith p s = .next t) (hi : ItWellFormed s.iset s.itstate) :
    ItWellFormed s.iset t.itstate := by
  obtain ⟨hzero, hmal⟩ := hi
  cases hs : s.iset with
  | a32 =>
    rw [stepWith_next_itstate_a32 h hs]
    exact ⟨fun _ => hzero hs, hmal⟩
  | t32 =>
    rw [stepWith_next_itstate_t32 h hs]
    exact ⟨fun he => (nomatch he), itMalformed_itNext hmal⟩

end Next

/-- Settles O39: the text and the set are kept, and each of the other two parts is kept on its own. -/
theorem invariantKeptByEveryStep : Obligations.InvariantKeptByEveryStep := by
  rintro p s t ⟨hwf, -, hit⟩ h
  obtain ⟨-, -, -, -, -, hiset, hmem, -⟩ := stepWith_next_keepsFixed h
  refine ⟨hmem ▸ hwf, ?_, ?_⟩
  · rw [hiset]
    exact stepWith_next_pcAligned h
  · rw [hiset]
    exact stepWith_next_itWellFormed h hit

/-- Settles O15: `stepCheck` is all that reads `P_IT`, and zero is an `ITSTATE` that every setting admits and every step keeps. -/
theorem itSettingsAgreeOutsideBlocks : Obligations.ItSettingsAgreeOutsideBlocks := by
  intro s h0
  constructor
  · have hcheck : stepCheck .outsideOnly s = stepCheck .full s := by simp only [stepCheck, h0, itRefused_zero]
    simp only [stepWith, fetch, hcheck]
  · intro p t h
    cases hs : s.iset with
    | a32 => rw [stepWith_next_itstate_a32 h hs, h0]
    | t32 => rw [stepWith_next_itstate_t32 h hs, h0, itNext_zero]

/-! ### What no number of steps changes -/

/-- The program text, the instruction set, `DIT` and the flags are the same. -/
abbrev KeepsTextAndMode (s t : State) : Prop := t.mem = s.mem ∧ t.iset = s.iset ∧ t.dit = s.dit ∧ SameFlags s t

/-- A transition keeps them, whether it is a step or a stop. -/
theorem advance_keepsTextAndMode (p : ItSupport) (s : State) : KeepsTextAndMode s (advance p s) := by
  unfold advance
  cases h : stepWith p s with
  | next t =>
    obtain ⟨hn, hz, hc, hv, hdit, hiset, hmem, -⟩ := stepWith_next_keepsFixed h
    exact ⟨hmem, hiset, hdit, hn, hz, hc, hv⟩
  | fault f =>
    rcases recorded_fault s f with hr | hr
    · rw [hr]
      exact ⟨rfl, rfl, rfl, rfl, rfl, rfl, rfl⟩
    · rw [hr]
      exact ⟨rfl, rfl, rfl, rfl, rfl, rfl, rfl⟩
  | refused r => exact ⟨rfl, rfl, rfl, rfl, rfl, rfl, rfl⟩

/-- Settles O40, by induction on the number of transitions. -/
theorem textAndModeConstantOverEveryRun : Obligations.TextAndModeConstantOverEveryRun := by
  intro p k s
  induction k with
  | zero => exact ⟨rfl, rfl, rfl, rfl, rfl, rfl, rfl⟩
  | succ k ih =>
    rw [Function.iterate_succ_apply']
    obtain ⟨hmem, hiset, hdit, hn, hz, hc, hv⟩ := ih
    obtain ⟨hmem', hiset', hdit', hn', hz', hc', hv'⟩ := advance_keepsTextAndMode p ((advance p)^[k] s)
    exact ⟨hmem'.trans hmem, hiset'.trans hiset, hdit'.trans hdit, hn'.trans hn, hz'.trans hz, hc'.trans hc, hv'.trans hv⟩

/-- Settles O52: `DIT` is constant over every run, and a launch has it as its setting says. -/
theorem ditExistsAsLaunched : Obligations.DitExistsAsLaunched := by
  intro p d l k hok
  obtain ⟨-, -, -, -, hd⟩ := launch_ok_iff.mp hok
  obtain ⟨-, -, hdit, -⟩ := textAndModeConstantOverEveryRun p k l.state
  exact ⟨(State.ditSupport_congr hdit).trans hd, hdit⟩

/-! ### Marks -/

section Mark

variable {p : ItSupport} {s : State}

theorem stepWith_of_faulted {f : Fault} (h : s.mark = some (.faulted f)) : stepWith p s = .fault f := by
  simp [stepWith, h]

theorem stepWith_of_refused {r : Refusal} (h : s.mark = some (.refused r)) : stepWith p s = .refused r := by
  simp [stepWith, h]

/-- Recording what the mark already holds changes nothing. -/
theorem State.mark_self {m : Mark} (h : s.mark = some m) : { s with mark := some m } = s := by
  rw [← h]

/-- A marked state stops again with its own mark. -/
theorem advance_of_marked (h : s.mark ≠ none) : advance p s = s := by
  obtain ⟨m, hm⟩ := Option.ne_none_iff_exists'.mp h
  cases m with
  | faulted f =>
    rw [advance, stepWith_of_faulted hm]
    rcases recorded_fault s f with hr | hr
    · exact hr
    · exact hr.trans (State.mark_self hm)
  | refused r =>
    rw [advance, stepWith_of_refused hm]
    exact State.mark_self hm

end Mark

/-! ### `DIT` is not read -/

/-- The state with another `DIT`, or with none. -/
def State.setDit (s : State) (b : Option Bool) : State := { s with dit := b }

/-- An outcome with `DIT` changed in its next state. -/
def withDit (b : Option Bool) : Host.Outcome State Fault Refusal → Host.Outcome State Fault Refusal
  | .next t => .next (t.setDit b)
  | .fault f => .fault f
  | .refused r => .refused r

theorem finish_setDit (set : ISet) (s : State) (b : Option Bool) :
    finish set (s.setDit b) = (finish set s).setDit b := by
  cases set with
  | a32 => rfl
  | t32 => by_cases h : s.itstate = 0#8 <;> simp [finish, State.setDit, State.itAdvance, State.advancePc, State.setPc, h]

theorem packExec_setDit (set : ISet) (cond : BitVec 4) (tbform : Bool) (d n : Reg) (imm5 : BitVec 5) (m : Reg) (s : State)
    (b : Option Bool) :
    packExec set cond tbform d n imm5 m (s.setDit b) = (packExec set cond tbform d n imm5 m s).setDit b := by
  have hcond : condHolds cond (s.setDit b) = condHolds cond s := rfl
  unfold packExec
  rw [hcond, ← finish_setDit]
  cases condHolds cond s <;> rfl

theorem packChecked_setDit (set : ISet) (w : Word) (cond : BitVec 4) (tbform : Bool) (rd rn : RegField) (imm5 : BitVec 5)
    (rm : RegField) (s : State) (b : Option Bool) :
    packChecked set w cond tbform rd rn imm5 rm (s.setDit b) = withDit b (packChecked set w cond tbform rd rn imm5 rm s) := by
  rcases packChecked_cases set w cond tbform rd rn imm5 rm s with ⟨d, n, m, rfl, rfl, rfl, he⟩ | ⟨h15, he⟩
  · rw [he, packChecked_fieldOf, packExec_setDit, withDit]
  · rw [he, packChecked_fifteen h15]
    rfl

theorem exec_setDit (i : Instr) (s : State) (b : Option Bool) : exec i (s.setDit b) = withDit b (exec i s) := by
  cases i with
  | pkhbtA1 | pkhtbA1 | pkhbtT1 | pkhtbT1 => exact packChecked_setDit ..
  | undefinedT1S | undefinedT1T | reservedT1Sbz15 | reservedA1Cond1111 => rfl

/-- Settles O41: neither the checks nor the fetch read `DIT`, and `exec` carries it along. -/
theorem ditReachesNoOutcome : Obligations.DitReachesNoOutcome := by
  intro p s b
  change stepWith p (s.setDit b) = withDit b (stepWith p s)
  cases hm : s.mark with
  | some mark =>
    cases mark with
    | faulted f => rw [stepWith_of_faulted hm, stepWith_of_faulted (s := s.setDit b) hm, withDit]
    | refused r => rw [stepWith_of_refused hm, stepWith_of_refused (s := s.setDit b) hm, withDit]
  | none =>
    cases hc : stepCheck p s with
    | some r => rw [stepWith_of_check hm hc, stepWith_of_check (s := s.setDit b) hm hc, withDit]
    | none =>
      have hfetch : fetchDecode (s.setDit b) = fetchDecode s := rfl
      rw [stepWith_of_ready hm hc, stepWith_of_ready (s := s.setDit b) hm hc, hfetch]
      cases fetchDecode s with
      | next i => exact exec_setDit i s b
      | fault f => rfl
      | refused r => rfl

/-! ### Runs -/

section Run

variable {p : ItSupport} {endAddr : Word} {k : Nat} {s t : State}

theorem isOver_iff : isOver endAddr s = true ↔ s.pc = endAddr ∧ s.mark = none := by
  simp [isOver]

theorem run_of_isOver (k : Nat) (h : isOver endAddr s = true) : run p endAddr k s = .finished s := by
  cases k <;> simp [run, h]

/-- A run that is not over where it starts finishes only by a step, and a shorter run from there. -/
theorem run_eq_finished (h : run p endAddr k s = .finished t) :
    (isOver endAddr s = true ∧ t = s) ∨
    ∃ (k' : Nat) (u : State), k = k' + 1 ∧ stepWith p s = .next u ∧ run p endAddr k' u = .finished t := by
  by_cases hover : isOver endAddr s = true
  · exact .inl ⟨hover, (RunEnd.finished.inj ((run_of_isOver k hover).symm.trans h)).symm⟩
  · cases k with
    | zero => simp [run, hover] at h
    | succ k =>
      simp only [run, if_neg hover] at h
      split at h
      next u hu => exact .inr ⟨k, u, rfl, hu, h⟩
      all_goals exact nomatch h

/-- What holds where a run finishes, and before a step wherever it holds after it, holds where the run starts. -/
theorem run_finished_induction {motive : Nat → State → Prop} (hover : ∀ k, isOver endAddr t = true → motive k t)
    (hstep : ∀ k s u, stepWith p s = .next u → motive k u → motive (k + 1) s) (h : run p endAddr k s = .finished t) : motive k s := by
  induction k generalizing s with
  | zero =>
    rcases run_eq_finished h with ⟨ho, rfl⟩ | ⟨k', u, hk, -⟩
    · exact hover 0 ho
    · exact nomatch hk
  | succ k ih =>
    rcases run_eq_finished h with ⟨ho, rfl⟩ | ⟨k', u, hk, hu, hrun⟩
    · exact hover (k + 1) ho
    · obtain rfl := Nat.succ.inj hk
      exact hstep k s u hu (ih hrun)

/-- A run finishes in an unmarked state at the end address. -/
theorem isOver_of_run_eq_finished (h : run p endAddr k s = .finished t) : isOver endAddr t = true :=
  run_finished_induction (motive := fun _ _ => isOver endAddr t = true) (fun _ ho => ho) (fun _ _ _ _ ho => ho) h

/-- A run that finishes starts unmarked. -/
theorem mark_eq_none_of_run_eq_finished (h : run p endAddr k s = .finished t) : s.mark = none := by
  rcases run_eq_finished h with ⟨hover, -⟩ | ⟨k', u, -, hstep, -⟩
  · exact (isOver_iff.mp hover).2
  · exact (stepWith_next.mp hstep).1

theorem KeepsFixed.trans {u : State} (h : KeepsFixed s t) (h' : KeepsFixed t u) : KeepsFixed s u := by
  obtain ⟨hn, hz, hc, hv, hdit, hiset, hmem, hmark⟩ := h
  obtain ⟨hn', hz', hc', hv', hdit', hiset', hmem', hmark'⟩ := h'
  exact ⟨hn'.trans hn, hz'.trans hz, hc'.trans hc, hv'.trans hv, hdit'.trans hdit, hiset'.trans hiset, hmem'.trans hmem,
    hmark'.trans hmark⟩

end Run

/-- `t` is reached from `s` in at most `k` transitions of 4 bytes each, and keeps what is fixed. -/
def StraightLine (p : ItSupport) (endAddr : Word) (t : State) (k : Nat) (s : State) : Prop :=
  ∃ j ≤ k, t = (advance p)^[j] s ∧ endAddr.toNat = s.pc.toNat + 4 * j ∧ KeepsFixed s t

/-- One more step at the start of a straight line adds 4 to the pc and keeps what is fixed. -/
theorem StraightLine.step {p : ItSupport} {endAddr : Word} {t s u : State} {k : Nat} (hu : stepWith p s = .next u)
    (h : StraightLine p endAddr t k u) : StraightLine p endAddr t (k + 1) s := by
  obtain ⟨j, hj, rfl, hend, hkeep⟩ := h
  have hadv : advance p s = u := by rw [advance, hu, recorded]
  have hpc := stepWith_next_pc hu
  refine ⟨j + 1, Nat.succ_le_succ hj, ?_, by omega, (stepWith_next_keepsFixed hu).trans hkeep⟩
  rw [Function.iterate_succ_apply, hadv]

/-- Settles O43: the marked state answers its mark again, and a run that finishes starts unmarked. -/
theorem marksStay : Obligations.MarksStay := by
  refine ⟨fun p s hm => ⟨fun t h => ?_, advance_of_marked hm, fun endAddr k t h => ?_⟩, fun p s pc w h => ?_, fun p s r h => ?_⟩
  · exact hm (stepWith_next.mp h).1
  · exact hm (mark_eq_none_of_run_eq_finished h)
  · rw [advance, h, recorded]
  · rw [advance, h, recorded]

/-- Settles O44: a run that starts at its end makes no step, and every finished run ends there. -/
theorem runEndsAtTheEndAddress : Obligations.RunEndsAtTheEndAddress := by
  intro p endAddr k s
  refine ⟨fun hpc hm => run_of_isOver k (isOver_iff.mpr ⟨hpc, hm⟩), fun t h => isOver_iff.mp (isOver_of_run_eq_finished h), ?_⟩
  intro o ho
  cases h : run p endAddr k s with
  | finished t => exact ⟨t, rfl, by simpa [h, RunEnd.observed, eq_comm] using ho⟩
  | marked t | stuck t | running t => simp [h, RunEnd.observed] at ho

/-- Settles O45: a run that is over is a straight line of no step, and each step before it makes it one longer. -/
theorem finishedRunIsAStraightLine : Obligations.FinishedRunIsAStraightLine := by
  intro p endAddr k s t h
  refine run_finished_induction (motive := StraightLine p endAddr t) (fun k ho => ?_) (fun k s u => StraightLine.step) h
  exact ⟨0, Nat.zero_le k, rfl, by rw [(isOver_iff.mp ho).1]; rfl, rfl, rfl, rfl, rfl, rfl, rfl, rfl, rfl⟩

end Sys2Proof.Machine
end

section
/-! PROOFS. The obligations of 40_pack_halfword.md and 10_state.md about one instruction: conditions and shifts, which instructions complete and in which state, the frame, and the closed forms of the results. -/

namespace Sys2Proof.Machine

open Sys2Proof

/-! ### Conditions, `CPSR` and `DecodeImmShift` -/

section Cpsr

variable (s : State) (others : Word)

theorem cpsr_bits :
    (s.cpsr others).getLsbD 31 = s.n ∧ (s.cpsr others).getLsbD 30 = s.z ∧ (s.cpsr others).getLsbD 29 = s.c ∧
    (s.cpsr others).getLsbD 28 = s.v ∧ (s.cpsr others).getLsbD 21 = s.dit.getD (others.getLsbD 21) ∧
    (s.cpsr others).getLsbD 5 = (s.iset == .t32) ∧ (s.cpsr others).getLsbD 27 = others.getLsbD 27 := by
  refine ⟨?_, ?_, ?_, ?_, ?_, ?_, ?_⟩
  all_goals
    simp only [State.cpsr, BitVec.getLsbD_append]
    simp

theorem cpsr_fields :
    (s.cpsr others).extractLsb' 10 6 = s.itstate.extractLsb' 2 6 ∧ (s.cpsr others).extractLsb' 25 2 = s.itstate.extractLsb' 0 2 ∧
    (s.cpsr others).extractLsb' 22 3 = others.extractLsb' 22 3 ∧ (s.cpsr others).extractLsb' 16 5 = others.extractLsb' 16 5 ∧
    (s.cpsr others).extractLsb' 6 4 = others.extractLsb' 6 4 ∧ (s.cpsr others).extractLsb' 0 5 = others.extractLsb' 0 5 := by
  refine ⟨?_, ?_, ?_, ?_, ?_, ?_⟩
  all_goals
    apply BitVec.eq_of_getLsbD_eq
    intro i hi
    simp only [State.cpsr, BitVec.getLsbD_append, BitVec.getLsbD_extractLsb']
    interval_cases i <;> simp

end Cpsr

/-- Settles O16: the seven bits and the six fields of the view. -/
theorem cpsrPlaces : Obligations.CpsrPlaces := by
  intro s others
  obtain ⟨h31, h30, h29, h28, h21, h5, h27⟩ := cpsr_bits s others
  obtain ⟨h10, h25, h22, h16, h6, h0⟩ := cpsr_fields s others
  exact ⟨h31, h30, h29, h28, h21, h5, h10, h25, h27, h22, h16, h6, h0⟩

/-- Settles O19: each row of the table is read off `condHolds`, case by case in the flags it names. -/
theorem conditionTable : Obligations.ConditionTable := by
  constructor
  · intro s
    refine ⟨rfl, rfl, rfl, rfl, rfl, rfl, rfl, rfl, rfl, ?_, rfl, ?_, ?_, ?_, rfl, rfl⟩
    · change (!(s.c && !s.z)) = _
      cases s.c <;> cases s.z <;> rfl
    · rfl
    · exact Bool.and_comm ..
    · change (!((s.n == s.v) && !s.z)) = (s.z || !(s.n == s.v))
      cases s.z <;> cases s.n == s.v <;> rfl
  · rintro s t cond ⟨hn, hz, hc, hv⟩
    exact condHolds_congr cond hn hz hc hv

/-- Settles O20: the two bits of the type choose the arm. -/
theorem decodeImmShiftArms : Obligations.DecodeImmShiftArms := by
  intro imm5
  exact ⟨rfl, rfl, rfl, rfl⟩

/-- Settles O21: LSL and ASR are the shifts of bit vectors; LSR and RRX are read off their definitions. -/
theorem shiftBits : Obligations.ShiftBits := by
  intro v carry
  refine ⟨fun kind => if_pos rfl, fun k i hk hi => ?_, fun k i h1 hk hi => ?_, fun k i h1 hk hi => ?_, fun i hi => ?_⟩
  · rw [shift_lsl, lsl32_eq, BitVec.getLsbD_shiftLeft]
    by_cases h : k ≤ i
    · simp [h, hi]
    · simp [h]
  · rw [shift_asr v (by omega), asr32_getLsbD v k hi, BitVec.msb_eq_getLsbD_last]
    simp only [show i + k < 32 ↔ i + k ≤ 31 by omega]
  · rw [shift, if_neg (by omega)]
    simp only [lsr32, BitVec.getLsbD_extractLsb', BitVec.getLsbD_setWidth, hi, Nat.add_comm k i]
    by_cases h : i + k ≤ 31
    · simp [h, show i + k < 32 + k by omega]
    · simp [h, BitVec.getLsbD_of_ge v (i + k) (by omega)]
  · rw [shift, if_neg (by decide)]
    simp only [rrx32, BitVec.getLsbD_append, BitVec.getLsbD_extractLsb']
    by_cases h : i = 31
    · simp [h]
    · have hlt : i < 31 := by omega
      simp [h, hlt, Nat.add_comm]

/-! ### Which instructions complete -/

section InstrOf

variable {set : ISet} {cond : BitVec 4} {tbform : Bool}

theorem defined_instrOf {rn rd : RegField} {imm5 : BitVec 5} {rm : RegField} :
    (instrOf set cond tbform rn rd imm5 rm).defined = true ↔
      (instrOf set cond tbform rn rd imm5 rm).wellFormed = true ∧ RegsDefined rd rn rm := by
  cases set <;> cases tbform <;> simp [instrOf, Instr.defined, Instr.wellFormed]

theorem wellFormed_instrOf {rn rd : RegField} {imm5 : BitVec 5} {rm : RegField} :
    (instrOf set cond tbform rn rd imm5 rm).wellFormed = true ↔ (set = .a32 → cond ≠ 15#4) := by
  cases set <;> cases tbform <;> simp [instrOf, Instr.wellFormed]

@[simp] theorem iset_instrOf {rn rd : RegField} {imm5 : BitVec 5} {rm : RegField} :
    (instrOf set cond tbform rn rd imm5 rm).iset = set := by
  cases set <;> cases tbform <;> rfl

theorem regsDefined_fieldOf (d n m : Reg) : RegsDefined (fieldOf d) (fieldOf n) (fieldOf m) :=
  ⟨fieldOf_ne_fifteen d, fieldOf_ne_fifteen n, fieldOf_ne_fifteen m⟩

end InstrOf

/-- What is defined is a Pack Halfword in one of its four forms, on registers 0 to 14 (30_encoding.md R43, R50). -/
theorem exists_instrOf_of_defined {i : Instr} (h : i.defined = true) :
    ∃ (cond : BitVec 4) (tbform : Bool) (d n : Reg) (imm5 : BitVec 5) (m : Reg),
      i = instrOf i.iset cond tbform (fieldOf n) (fieldOf d) imm5 (fieldOf m) ∧ (i.iset = .a32 → cond ≠ 15#4) := by
  have key {set cond tbform rn rd imm5 rm} (hi : (instrOf set cond tbform rn rd imm5 rm).defined = true) :
      ∃ (d n m : Reg), rd = fieldOf d ∧ rn = fieldOf n ∧ rm = fieldOf m ∧ (set = .a32 → cond ≠ 15#4) := by
    obtain ⟨hwf, hd, hn, hm⟩ := defined_instrOf.mp hi
    obtain ⟨d, hd⟩ := exists_fieldOf hd
    obtain ⟨n, hn⟩ := exists_fieldOf hn
    obtain ⟨m, hm⟩ := exists_fieldOf hm
    exact ⟨d, n, m, hd, hn, hm, wellFormed_instrOf.mp hwf⟩
  cases i with
  | pkhbtA1 cond rn rd imm5 rm =>
    obtain ⟨d, n, m, rfl, rfl, rfl, hcond⟩ := key (set := .a32) (tbform := false) h
    exact ⟨cond, false, d, n, imm5, m, rfl, hcond⟩
  | pkhtbA1 cond rn rd imm5 rm =>
    obtain ⟨d, n, m, rfl, rfl, rfl, hcond⟩ := key (set := .a32) (tbform := true) h
    exact ⟨cond, true, d, n, imm5, m, rfl, hcond⟩
  | pkhbtT1 rn rd imm5 rm =>
    obtain ⟨d, n, m, rfl, rfl, rfl, hcond⟩ := key (set := .t32) (cond := 0#4) (tbform := false) h
    exact ⟨0#4, false, d, n, imm5, m, rfl, hcond⟩
  | pkhtbT1 rn rd imm5 rm =>
    obtain ⟨d, n, m, rfl, rfl, rfl, hcond⟩ := key (set := .t32) (cond := 0#4) (tbform := true) h
    exact ⟨0#4, true, d, n, imm5, m, rfl, hcond⟩
  | undefinedT1S | undefinedT1T | reservedT1Sbz15 | reservedA1Cond1111 => exact nomatch h

/-- What completes is a Pack Halfword on registers 0 to 14, and completes in `packExec`'s state. -/
theorem exists_instrOf_of_exec_next {i : Instr} {s t : State} (h : exec i s = .next t) :
    ∃ (cond : BitVec 4) (tbform : Bool) (d n : Reg) (imm5 : BitVec 5) (m : Reg),
      i = instrOf i.iset cond tbform (fieldOf n) (fieldOf d) imm5 (fieldOf m) ∧
      t = packExec i.iset (packCond i.iset cond s) tbform d n imm5 m s := by
  obtain ⟨cond, tbform, d, n, imm5, m, rfl, hi⟩ := exec_next h
  rcases hi with ⟨rfl, rfl⟩ | ⟨rfl, rfl⟩ | ⟨rfl, rfl, rfl⟩ | ⟨rfl, rfl, rfl⟩
  · exact ⟨cond, false, d, n, imm5, m, rfl, rfl⟩
  · exact ⟨cond, true, d, n, imm5, m, rfl, rfl⟩
  · exact ⟨0#4, false, d, n, imm5, m, rfl, rfl⟩
  · exact ⟨0#4, true, d, n, imm5, m, rfl, rfl⟩

/-- Settles O22: the A32 and the T32 form of `packExec_bt`. -/
theorem pkhbtCompletes : Obligations.PkhbtCompletes := by
  intro s d n m imm5
  constructor
  · intro cond
    exact (exec_instrOf .a32 cond false d n imm5 m s).trans (congrArg Host.Outcome.next (packExec_bt ..))
  · exact (exec_instrOf .t32 0#4 false d n imm5 m s).trans (congrArg Host.Outcome.next (packExec_bt ..))

/-- Settles O23: the A32 and the T32 form of `packExec_tb`. -/
theorem pkhtbCompletes : Obligations.PkhtbCompletes := by
  intro s d n m imm5
  constructor
  · intro cond
    exact (exec_instrOf .a32 cond true d n imm5 m s).trans (congrArg Host.Outcome.next (packExec_tb ..))
  · exact (exec_instrOf .t32 0#4 true d n imm5 m s).trans (congrArg Host.Outcome.next (packExec_tb ..))

/-- Settles O28: the operand check of `packChecked`, in the four forms. -/
theorem registerFifteenIsRefused : Obligations.RegisterFifteenIsRefused := by
  intro set cond tbform rn rd imm5 rm s h
  exact exec_instrOf_of_not_regsDefined set cond tbform imm5 s h

/-- Settles O29: the defined instructions are `instrOf` on registers 0 to 14, and so are those that complete. -/
theorem exactlyDefinedInstructionsComplete : Obligations.ExactlyDefinedInstructionsComplete := by
  intro i s hwf
  constructor
  · intro h
    obtain ⟨cond, tbform, d, n, imm5, m, hi, -⟩ := exists_instrOf_of_defined h
    rw [hi]
    exact ⟨_, exec_instrOf ..⟩
  · rintro ⟨t, h⟩
    obtain ⟨cond, tbform, d, n, imm5, m, hi, -⟩ := exists_instrOf_of_exec_next h
    rw [hi] at hwf ⊢
    exact defined_instrOf.mpr ⟨hwf, regsDefined_fieldOf d n m⟩

/-- Settles O30: the four arms of `exec` that stop. -/
theorem neighbouringWordsStop : Obligations.NeighbouringWordsStop := by
  intro s
  exact ⟨fun _ _ => rfl, fun _ _ _ => rfl, fun _ _ _ => rfl, fun _ _ => rfl⟩

/-- Settles O42: the three conjuncts of `timingPromise`, with the condition and the fields of `instrOf`. -/
theorem timingPromisePremises : Obligations.TimingPromisePremises := by
  intro set cond tbform rn rd imm5 rm s hcond
  have hdef : (instrOf set cond tbform rn rd imm5 rm).defined = true ↔ RegsDefined rd rn rm := by
    rw [defined_instrOf, wellFormed_instrOf]
    exact and_iff_right fun _ => hcond
  rw [timingPromise, Bool.and_eq_true, Bool.and_eq_true, beq_iff_eq, hdef, conditionPassed_instrOf, and_assoc]
  cases set <;> rfl

/-! ### A failed condition, the carry and the frame -/

/-- An instruction whose condition fails reads and writes no register (40_pack_halfword.md R71). -/
theorem footprint_of_not_conditionPassed {i : Instr} {s : State} (h : conditionPassed i s = false) :
    regsRead i s = [] ∧ regsWritten i s = [] := by
  unfold regsRead regsWritten
  rw [h]
  cases regFields i <;> exact ⟨rfl, rfl⟩

/-- Settles O34: a `packExec` whose condition fails is `finish`. -/
theorem conditionFailedOnlyMovesOn : Obligations.ConditionFailedOnlyMovesOn := by
  intro i s hdef hfail
  refine ⟨?_, footprint_of_not_conditionPassed hfail⟩
  obtain ⟨cond, tbform, d, n, imm5, m, hi, -⟩ := exists_instrOf_of_defined hdef
  rw [hi, conditionPassed_instrOf] at hfail
  rw [hi, exec_instrOf, packExec, hfail, iset_instrOf]
  cases i.iset <;> rfl

/-- Settles O36: the condition is the same and the operand does not read the carry, so every register gets the same value. -/
theorem carryDoesNotReachTheResult : Obligations.CarryDoesNotReachTheResult := by
  intro i s t t' b hcond ht ht'
  obtain ⟨cond, tbform, d, n, imm5, m, hi, rfl⟩ := exists_instrOf_of_exec_next ht
  rw [hi, exec_instrOf] at ht'
  obtain rfl := Host.Outcome.next.inj ht'
  rw [hi, conditionPassed_instrOf, conditionPassed_instrOf] at hcond
  refine State.regs_ext fun r => ?_
  rw [reg_packExec, reg_packExec, hcond, operand2_congr tbform imm5 (s := { s with c := b }) (s' := s) rfl]
  rfl

/-- Settles O37: each field of `packExec`'s state. -/
theorem packHalfwordFrame : Obligations.PackHalfwordFrame := by
  intro set cond tbform d n m imm5 s t h
  obtain rfl := Host.Outcome.next.inj ((exec_instrOf ..).symm.trans h)
  refine ⟨fun r => reg_packExec_other, packExec_n .., packExec_z .., packExec_c .., packExec_v .., packExec_dit .., packExec_iset ..,
    packExec_mark .., fun a => by rw [packExec_mem], ?_⟩
  rintro (rfl | h0)
  · simp
  · simp [h0]

/-! ### Halves -/

@[simp] theorem top_append (a b : Half) : top (a ++ b) = a := wordT32_high a b

@[simp] theorem bottom_append (a b : Half) : bottom (a ++ b) = b := wordT32_low a b

@[simp] theorem top_append_bottom (w : Word) : top w ++ bottom w = w := wordT32_halves w

/-- The halves of two words, joined by masks. -/
theorem top_append_bottom_eq_or (a b : Word) : top a ++ bottom b = (a &&& 0xFFFF0000#32) ||| (b &&& 0x0000FFFF#32) := by
  apply BitVec.eq_of_getLsbD_eq
  intro i hi
  simp only [top, bottom, BitVec.getLsbD_append, BitVec.getLsbD_or, BitVec.getLsbD_and, BitVec.getLsbD_extractLsb']
  interval_cases i <;> simp

theorem State.setTop_setBottom (s : State) (d : Reg) (h h' : Half) : (s.setBottom d h).setTop d h' = s.setReg d (h' ++ h) := by
  simp [State.setTop, State.setBottom]

theorem State.top_reg_setBottom (s : State) (d n : Reg) (h : Half) : top ((s.setBottom d h).reg n) = top (s.reg n) := by
  by_cases hn : n = d
  · simp [State.setBottom, hn]
  · rw [State.setBottom, State.reg_setReg_other s _ hn]

/-- The bottom half-write does not change what the top one reads (40_pack_halfword.md R63, R70). -/
theorem packWriteHalves_eq (tbform : Bool) (d n : Reg) (imm5 : BitVec 5) (m : Reg) (s : State) :
    packWriteHalves tbform d n imm5 m s = packWrite tbform d n imm5 m s := by
  rw [packWriteHalves, State.setTop_setBottom, State.top_reg_setBottom, packWrite]
  cases tbform <;> rfl

/-- Settles O33: with `d = n` the half of `x[n]` that is kept is the one the mnemonic takes from it. -/
theorem halfWritesAreOneWrite : Obligations.HalfWritesAreOneWrite := by
  intro tbform d n m imm5 s
  rw [packWriteHalves_eq, packWrite, State.reg_setReg_same]
  refine ⟨rfl, ?_, ?_⟩
  · rintro rfl rfl
    rw [packed_bt, bottom_append]
  · rintro rfl rfl
    rw [packed_tb, top_append]

/-! ### Closed forms -/

section ClosedForms

variable (v : Word) {k : Nat}

theorem top_lsl32_of_le (hk : k ≤ 15) : top (lsl32 v k) = v.extractLsb' (16 - k) 16 := by
  apply BitVec.eq_of_getLsbD_eq
  intro i hi
  rw [lsl32_eq, top]
  simp only [BitVec.getLsbD_extractLsb', BitVec.getLsbD_shiftLeft, hi, show 16 + i < 32 by omega, show ¬ 16 + i < k by omega,
    show 16 + i - k = 16 - k + i by omega, decide_true, decide_false, Bool.not_false, Bool.true_and]

/-- What is left of a word shifted by 16 or more is its low bits, moved up. -/
theorem toNat_top_lsl32_of_ge (h16 : 16 ≤ k) (hk : k ≤ 32) :
    (top (lsl32 v k)).toNat = (v.extractLsb' 0 (32 - k)).toNat * 2 ^ (k - 16) := by
  have hsplit : (2 : Nat) ^ 32 = 2 ^ (32 - k) * 2 ^ k := by rw [← Nat.pow_add, Nat.sub_add_cancel hk]
  have hup : (2 : Nat) ^ k = 2 ^ (k - 16) * 2 ^ 16 := by rw [← Nat.pow_add, Nat.sub_add_cancel h16]
  have hlt : v.toNat % 2 ^ (32 - k) * 2 ^ (k - 16) < 2 ^ 16 := by
    have hsum : (2 : Nat) ^ (32 - k) * 2 ^ (k - 16) = 2 ^ 16 := by
      rw [← Nat.pow_add]
      congr 1
      omega
    rw [← hsum]
    exact Nat.mul_lt_mul_of_pos_right (Nat.mod_lt _ (by positivity)) (by positivity)
  simp only [top, lsl32, BitVec.extractLsb'_toNat, BitVec.toNat_ofNat, Nat.shiftRight_zero, Nat.shiftRight_eq_div_pow _ 16]
  rw [hsplit, Nat.mul_mod_mul_right]
  conv_lhs => rw [hup, ← Nat.mul_assoc, Nat.mul_div_cancel _ (by decide), Nat.mod_eq_of_lt hlt]

theorem bottom_asr32_of_le (hk : k ≤ 16) : bottom (asr32 v k) = v.extractLsb' k 16 := by
  apply BitVec.eq_of_getLsbD_eq
  intro i hi
  rw [bottom, BitVec.getLsbD_extractLsb', BitVec.getLsbD_extractLsb', asr32_getLsbD v k (by omega), Nat.zero_add, if_pos (by omega),
    Nat.add_comm]

/-- The remaining bits of a word shifted by 17 to 31, and then its sign. -/
theorem bottom_asr32_of_ge (h17 : 17 ≤ k) (hk : k ≤ 31) : bottom (asr32 v k) = (v.extractLsb' k (32 - k)).signExtend 16 := by
  apply BitVec.eq_of_getLsbD_eq
  intro i hi
  rw [bottom, BitVec.getLsbD_extractLsb', asr32_getLsbD v k (by omega), Nat.zero_add, BitVec.getLsbD_signExtend,
    BitVec.getLsbD_extractLsb', BitVec.msb_eq_getLsbD_last, BitVec.msb_eq_getLsbD_last, BitVec.getLsbD_extractLsb']
  by_cases h : i + k < 32
  · simp [hi, show i < 32 - k by omega, Nat.add_comm i k, show k + i < 32 by omega]
  · simp [hi, show ¬ i < 32 - k by omega, h, show 32 - k - 1 < 32 - k by omega, show k + (32 - k - 1) = 31 by omega]

theorem bottom_asr32_thirtyTwo : bottom (asr32 v 32) = if v.getLsbD 31 then 0xFFFF#16 else 0x0000#16 := by
  apply BitVec.eq_of_getLsbD_eq
  intro i hi
  rw [bottom, BitVec.getLsbD_extractLsb', asr32_getLsbD v 32 (by omega), if_neg (by omega), BitVec.msb_eq_getLsbD_last]
  cases v.getLsbD (32 - 1)
  · simp
  · interval_cases i <;> simp

/-- The bottom halfword of `ASR32`, as the floor of the signed division (R73). -/
theorem asr32_and_low (k : Nat) : asr32 v k &&& 0x0000FFFF#32 = BitVec.ofNat 32 (Int.fdiv v.toInt (2 ^ k) % 2 ^ 16).toNat := by
  have hdiv : Int.fdiv v.toInt (2 ^ k) = (v.sshiftRight k).toInt := by
    rw [BitVec.toInt_sshiftRight, Int.shiftRight_eq_div_pow, Int.fdiv_eq_ediv_of_nonneg _ (by positivity)]
    norm_cast
  rw [hdiv, asr32_eq]
  apply BitVec.eq_of_toNat_eq
  have h : (v.sshiftRight k &&& 0x0000FFFF#32).toNat = (v.sshiftRight k).toNat % 2 ^ 16 := by
    rw [BitVec.toNat_and]
    exact Nat.and_two_pow_sub_one_eq_mod _ 16
  have hint := BitVec.toInt_eq_toNat_bmod (v.sshiftRight k)
  have hlt := (v.sshiftRight k).isLt
  rw [h, BitVec.toNat_ofNat]
  rw [BitVec.toInt_eq_toNat_cond] at hint ⊢
  split_ifs <;> omega

end ClosedForms

section

variable {set : ISet} {cond : BitVec 4} {tbform : Bool} {d n m : Reg} {imm5 : BitVec 5} {s t : State}

/-- The register a passed Pack Halfword writes. -/
theorem reg_of_exec_instrOf (h : exec (instrOf set cond tbform (fieldOf n) (fieldOf d) imm5 (fieldOf m)) s = .next t)
    (hpass : conditionPassed (instrOf set cond tbform (fieldOf n) (fieldOf d) imm5 (fieldOf m)) s = true) :
    t.reg d = packed tbform (s.reg n) (operand2 tbform imm5 m s) := by
  obtain rfl := Host.Outcome.next.inj ((exec_instrOf ..).symm.trans h)
  rw [conditionPassed_instrOf] at hpass
  exact reg_packExec_dest hpass

end

/-- Settles O31: the top half of the shifted `x[m]` over the bottom half of `x[n]`, in each range of the shift. -/
theorem pkhbtClosedForms : Obligations.PkhbtClosedForms := by
  intro set cond d n m imm5 s t h hpass
  have ht : t.reg d = top (lsl32 (s.reg m) imm5.toNat) ++ bottom (s.reg n) := by
    rw [reg_of_exec_instrOf h hpass, operand2_bt, packed_bt]
  rw [ht, top_append, bottom_append]
  refine ⟨?_, rfl, top_lsl32_of_le _, fun h16 => toNat_top_lsl32_of_ge _ h16 (by omega), ?_⟩
  · rw [top_append_bottom_eq_or]
    congr 2
    exact BitVec.eq_of_toNat_eq (by simp [lsl32])
  · rintro rfl rfl
    simp [lsl32]

/-- Settles O32: the top half of `x[n]` over the bottom half of the shifted `x[m]`, in each range of the shift. -/
theorem pkhtbClosedForms : Obligations.PkhtbClosedForms := by
  intro set cond d n m imm5 s t k h hpass hk
  have ht : t.reg d = top (s.reg n) ++ bottom (asr32 (s.reg m) k) := by
    rw [reg_of_exec_instrOf h hpass, operand2_tb, packed_tb, hk, amountOr32]
  rw [ht, top_append, bottom_append]
  refine ⟨?_, rfl, bottom_asr32_of_le _, bottom_asr32_of_ge _, ?_⟩
  · rw [top_append_bottom_eq_or, asr32_and_low]
  · rintro rfl
    exact bottom_asr32_thirtyTwo _

end Sys2Proof.Machine
end

section
/-! PROOFS. The obligations of 30_encoding.md section 6: the assembler and the disassembler (R54 to R61).
What it takes for a line to be assembled is said once (`assemble_eq_ok`), and so is the line of each Pack Halfword (`packLine`). -/

namespace Sys2Proof.Machine

open Sys2Proof

/-! ### Assembling -/

section Assemble

variable {ctx : AsmContext} {l : Line}

/-- A line is assembled when its qualifier, its condition, its registers and its shift are all admitted. -/
theorem assemble_eq_ok {i : Instr} : assemble ctx l = .ok i ↔
    l.qualifier ≠ some .narrow ∧ condAllowed ctx l = true ∧ RegsDefined l.destination l.rn l.rm ∧
    ∃ tbform rn imm5 rm, lineFields ctx.acceptZero l = .fields tbform rn imm5 rm ∧
      i = instrOf ctx.iset l.condition.code tbform rn l.destination imm5 rm := by
  by_cases hq : l.qualifier = some .narrow
  · simp [assemble, hq]
  · by_cases hc : condAllowed ctx l = true
    · by_cases hr : RegsDefined l.destination l.rn l.rm
      · cases hf : lineFields ctx.acceptZero l with
        | error e => simp [assemble, hq, hc, hr, hf]
        | fields tbform rn imm5 rm =>
          simpa [assemble, hq, hc, hr, hf, eq_comm] using fun _ => hr
      · simp [assemble, hq, hc, hr]
    · simp [assemble, hq, hc]

theorem assemble_of_narrow (h : l.qualifier = some .narrow) : assemble ctx l = .error .narrow := if_pos h

end Assemble

@[simp] theorem currentCond_instrOf (set : ISet) (cond : BitVec 4) (tbform : Bool) (rn rd : RegField) (imm5 : BitVec 5) (rm : RegField)
    (s : State) : currentCond (instrOf set cond tbform rn rd imm5 rm) s = some (packCond set cond s) := by
  cases set <;> cases tbform <;> rfl

/-- Settles O51: what `assemble` asks of the qualifier and of the condition. -/
theorem conditionAndQualifier : Obligations.ConditionAndQualifier := by
  refine ⟨fun ctx l => assemble_of_narrow, fun ctx l => ?_, fun itCond zero l i h s => ?_, fun itCond zero l i h => ?_⟩
  · exact if_congr (by simp) rfl rfl
  · obtain ⟨-, -, -, tbform, rn, imm5, rm, -, rfl⟩ := assemble_eq_ok.mp h
    rw [currentCond_instrOf]
    rfl
  · obtain ⟨-, hc, -⟩ := assemble_eq_ok.mp h
    exact beq_iff_eq.mp hc

/-- Settles O49: both lines have the fields of a PKHBT with the sources exchanged, whose shift by 0 leaves its operand. -/
theorem pseudoInstruction : Obligations.PseudoInstruction := by
  intro ctx l hm hs
  have hok (i : Instr) (h : assemble ctx l = .ok i) : i = instrOf ctx.iset l.condition.code false l.rm l.destination 0#5 l.rn := by
    obtain ⟨-, -, -, tbform, rn, imm5, rm, hf, rfl⟩ := assemble_eq_ok.mp h
    obtain ⟨rfl, rfl, rfl, rfl⟩ := LineFields.fields.inj ((lineFields_pkhtb_none ctx.acceptZero hm hs).symm.trans hf)
    rfl
  refine ⟨?_, hok, fun d n m i s t hd hn hm' h ht hpass => ?_⟩
  · have hregs : ¬ RegsDefined l.destination l.rn l.rm ↔ ¬ RegsDefined l.destination l.rm l.rn :=
      not_congr (and_congr_right fun _ => and_comm)
    refine if_congr Iff.rfl rfl (if_congr Iff.rfl rfl (if_congr hregs rfl ?_))
    rw [lineFields_pkhtb_none _ hm hs,
      lineFields_pkhbt_none (l := { l with mnemonic := .pkhbt, rd := some l.destination, rn := l.rm, rm := l.rn }) _ rfl hs]
    rfl
  · obtain rfl := hok i h
    rw [hd, hn, hm'] at ht hpass
    rw [reg_of_exec_instrOf ht hpass, operand2_bt, packed_bt]
    simp [lsl32]

/-! ### Disassembling -/

/-- The line of a Pack Halfword (R61). -/
def packLine (tbform : Bool) (c : Cond) (rn rd : RegField) (imm5 : BitVec 5) (rm : RegField) : Line :=
  if tbform then pkhtbLine c rn rd imm5 rm else pkhbtLine c rn rd imm5 rm

/-- Every `cond` field but 1111 names the condition whose code it is (R56). -/
theorem condOf_of_ne_fifteen {code : BitVec 4} (h : code ≠ 15#4) : ∃ c, condOf code = some c ∧ c.code = code := by
  have hany : (condOf code).any (fun c => c.code == code) = true := by
    revert code
    decide
  obtain ⟨c, hc, hcode⟩ := (Option.any_eq_true ..).mp hany
  exact ⟨c, hc, beq_iff_eq.mp hcode⟩

section PackLine

variable {set : ISet} {cond : BitVec 4} {tbform : Bool} {c : Cond} {rn rd : RegField} {imm5 : BitVec 5} {rm : RegField}

/-- A defined Pack Halfword is printed with its own condition in A32 and with the block's in T32. -/
theorem disassemble_instrOf {itCond : Option Cond} (hdef : (instrOf set cond tbform rn rd imm5 rm).defined = true)
    (ha32 : set = .a32 → condOf cond = some c) (ht32 : set = .t32 → c = itCond.getD .al) :
    disassemble itCond (instrOf set cond tbform rn rd imm5 rm) = some (packLine tbform c rn rd imm5 rm) := by
  unfold disassemble
  rw [if_pos hdef]
  cases set with
  | a32 => cases tbform <;> simp [instrOf, packLine, ha32 rfl]
  | t32 => cases tbform <;> simp [instrOf, packLine, ht32 rfl]

theorem packLine_condition : (packLine tbform c rn rd imm5 rm).condition = c := by
  cases tbform <;> cases c <;> rfl

theorem ofNat_amountOr32 (imm5 : BitVec 5) : BitVec.ofNat 5 (amountOr32 imm5) = imm5 := by
  revert imm5
  decide

theorem amountOr32_le (imm5 : BitVec 5) : amountOr32 imm5 ≤ 32 := by
  revert imm5
  decide

/-- The shift that is printed is read as the field it was printed from, and is never `#0`. -/
theorem lineFields_packLine (zero : Bool) : lineFields zero (packLine tbform c rn rd imm5 rm) = .fields tbform rn imm5 rm := by
  cases tbform with
  | false =>
    by_cases h0 : imm5 = 0#5
    · subst h0
      exact lineFields_pkhbt_none zero rfl rfl
    · have hk : imm5.toNat ≠ 0 := fun h => h0 (BitVec.eq_of_toNat_eq h)
      have hs : (packLine false c rn rd imm5 rm).shift = some (.lsl imm5.toNat) := if_neg h0
      rw [lineFields_pkhbt_lsl zero rfl hs hk, if_pos (by omega), BitVec.ofNat_toNat, BitVec.setWidth_eq]
      rfl
  | true =>
    rw [lineFields_pkhtb_asr zero rfl rfl (amountOr32_pos imm5), if_pos (amountOr32_le imm5), ofNat_amountOr32]
    rfl

/-- The line of a defined Pack Halfword is assembled to it where its condition may stand. -/
theorem assemble_packLine {ctx : AsmContext} (hregs : RegsDefined rd rn rm) (ht32 : ctx.iset = .t32 → c = ctx.itCond.getD .al) :
    assemble ctx (packLine tbform c rn rd imm5 rm) = .ok (instrOf ctx.iset c.code tbform rn rd imm5 rm) := by
  have hdest : (packLine tbform c rn rd imm5 rm).destination = rd := by cases tbform <;> rfl
  refine assemble_eq_ok.mpr ⟨by cases tbform <;> exact nofun, ?_, ?_, tbform, rn, imm5, rm, lineFields_packLine _, ?_⟩
  · unfold condAllowed
    cases hset : ctx.iset with
    | a32 => rfl
    | t32 => exact beq_iff_eq.mpr (packLine_condition.trans (ht32 hset))
  · rw [hdest]
    cases tbform <;> exact hregs
  · rw [packLine_condition, hdest]

end PackLine

/-- A defined instruction and its line: the instruction is a Pack Halfword on fields 0 to 14, and the line is `packLine` of its fields. -/
theorem exists_packLine_of_defined {i : Instr} (itCond : Option Cond) (h : i.defined = true) :
    ∃ (c : Cond) (tbform : Bool) (rn rd : RegField) (imm5 : BitVec 5) (rm : RegField),
      i = instrOf i.iset c.code tbform rn rd imm5 rm ∧ RegsDefined rd rn rm ∧ (i.iset = .t32 → c = itCond.getD .al) ∧
      disassemble itCond i = some (packLine tbform c rn rd imm5 rm) := by
  obtain ⟨cond, tbform, d, n, imm5, m, hi, hcond⟩ := exists_instrOf_of_defined h
  rw [hi] at h
  cases hset : i.iset with
  | a32 =>
    obtain ⟨c, hc, rfl⟩ := condOf_of_ne_fifteen (hcond hset)
    rw [hset] at hi h
    refine ⟨c, tbform, _, _, imm5, _, hi, regsDefined_fieldOf d n m, nofun, ?_⟩
    rw [hi, disassemble_instrOf h (fun _ => hc) nofun]
  | t32 =>
    rw [hset] at hi h
    refine ⟨itCond.getD .al, tbform, _, _, imm5, _, ?_, regsDefined_fieldOf d n m, fun _ => rfl, ?_⟩
    · rw [hi]
      cases tbform <;> rfl
    · rw [hi, disassemble_instrOf h nofun fun _ => rfl]

/-- Settles O46: the line of a defined instruction is `packLine` of its fields, which is assembled to them. -/
theorem assembleOfDisassemble : Obligations.AssembleOfDisassemble := by
  intro i itCond zero h
  obtain ⟨c, tbform, rn, rd, imm5, rm, hi, hregs, ht32, hdis⟩ := exists_packLine_of_defined itCond h
  refine ⟨_, hdis, ?_⟩
  rw [assemble_packLine hregs ht32]
  exact congrArg Assembled.ok hi.symm

/-- What has a line is defined. -/
theorem defined_of_disassemble {i : Instr} {itCond : Option Cond} {l : Line} (h : disassemble itCond i = some l) : i.defined = true := by
  by_contra hdef
  unfold disassemble at h
  rw [if_neg hdef] at h
  exact nomatch h

/-- Settles O50: each form of `packLine`. -/
theorem disassemblyForms : Obligations.DisassemblyForms := by
  intro i itCond l h
  obtain ⟨c, tbform, rn, rd, imm5, rm, hi, hregs, -, hdis⟩ := exists_packLine_of_defined itCond (defined_of_disassemble h)
  obtain rfl := Option.some.inj (hdis.symm.trans h)
  cases tbform with
  | false =>
    have hs : (packLine false c rn rd imm5 rm).shift = if imm5 = 0#5 then none else some (.lsl imm5.toNat) := rfl
    refine ⟨?_, ?_, nofun, i.iset, c.code, false, rn, rd, imm5, rm, hi, hregs, rfl, rfl, rfl, fun _ => ⟨rfl, hs⟩, nofun⟩
    · rw [hs]
      split_ifs with h0
      · exact nofun
      · intro he
        exact h0 (BitVec.eq_of_toNat_eq (WrittenShift.lsl.inj (Option.some.inj he)))
    · rw [hs]
      split_ifs <;> exact nofun
  | true =>
    have hs : (packLine true c rn rd imm5 rm).shift = some (.asr (amountOr32 imm5)) := rfl
    refine ⟨nofun, ?_, fun _ => nofun, i.iset, c.code, true, rn, rd, imm5, rm, hi, hregs, rfl, rfl, rfl, nofun, fun _ => ⟨rfl, hs⟩⟩
    rw [hs]
    intro he
    exact amountOr32_pos imm5 (WrittenShift.asr.inj (Option.some.inj he))

end Sys2Proof.Machine
end
